-- ==== Sys2Proof/Word.lean ====
section
/-! DEFINITION. The word types of the block: bytes, the 16-bit words of the wire, the 32-bit words of the host bus (rules R7, R8, R9). -/

namespace Sys2Proof

/-- A byte of a frame or of the buffer (rule R9). -/
abbrev Byte := BitVec 8

/-- A 16-bit value: the CRC accumulator, a buffer position, a count or a length (rule R7). -/
abbrev Half := BitVec 16

/-- A 32-bit host register value or command word (rules R7, R90). -/
abbrev Word := BitVec 32

/-- An offset in the 17-bit host space (rule R60 (a)). -/
abbrev Offset := BitVec 17

end Sys2Proof
end

