-- ==== Sys2Proof/Config.lean ====
section
/-! DEFINITION. What an implementation of the block fixes: the size of its buffer (rule R6). Nothing of the block is a free value: the one unspecified value, an unwritten buffer byte, is a fault by rule R67. -/

namespace Sys2Proof

/-- The parameter `BUF_SIZE` of rule R6, with the bounds the rule gives, so that no other size can be built (log entry 1). -/
structure BufSize where
  val : Nat
  least : 256 ≤ val
  most : val ≤ 65535
  deriving DecidableEq, Repr

/-- "The value 256 is the recommended and default instance" (rule R6). -/
def BufSize.standard : BufSize := ⟨256, by decide, by decide⟩

end Sys2Proof
end

