-- ==== Sys2Proof/Syntax.lean ====
section
/-! DEFINITION. The syntax: the nineteen commands (rule R94), the registers of the host space (rule R21), the accesses a host makes (rules R13, R61 to R64), and the lines of a host program (rules R97, R98). -/

namespace Sys2Proof

/-- The commands, one constructor for each row of the opcode table. An operand stands at its exact width: the byte operand of the form "byte" (rule R93 (a)), the flag FIXED of the form "flags" (rule R93 (b)). -/
inductive Instr where
  | crcinit
  | crcbyte (imm : Byte)
  | crcbuf
  | crcapp
  | crcver
  | frmchk (imm : Byte)
  | dec16
  | dec32
  | dec64
  | enc16
  | enc32
  | enc64
  | perm16
  | perm32
  | perm64
  | strenc (fixed : Bool)
  | strdec (fixed : Bool)
  | bpack
  | bunpack
  deriving DecidableEq, Repr

/-- The twelve register words of rule R21, in the order of their offsets. -/
inductive Reg where
  | cfg
  | crc
  | len
  | cmd
  | status
  | dataLo
  | dataHi
  | src
  | dst
  | cnt
  | aux
  | rlen
  deriving DecidableEq, Repr

/-- The width of a host access: 8, 16 or 32 bits (rules R62, R63). -/
inductive Width where
  | w8
  | w16
  | w32
  deriving DecidableEq, Repr

/-- The data of a host access, at its width. -/
inductive BusData where
  | b8 (v : Byte)
  | b16 (v : Half)
  | b32 (v : Word)
  deriving DecidableEq, Repr

def BusData.width : BusData → Width
  | .b8 _ => .w8
  | .b16 _ => .w16
  | .b32 _ => .w32

/-- A host access: "one read or write on the host bus" (rule R13), at any offset of the host space and any width. -/
inductive HostAccess where
  | read (width : Width) (off : Offset)
  | write (off : Offset) (v : BusData)
  deriving DecidableEq, Repr

/-- What the outside world does to the block: an access on its one host port (rule R74), or the reset input asserted and released (rule R240). -/
inductive HostInput where
  | access (a : HostAccess)
  | reset
  deriving DecidableEq, Repr

/-- What the host port answers to an access: a read's value, a write accepted, or the error response of rule R216, which carries no data. -/
inductive Reply where
  | data (v : BusData)
  | accepted
  | busError
  deriving DecidableEq, Repr

/-- A line of a host program (rule R98): five accesses and five pseudo-instructions. The command of `C cmd` is an `Instr` (rule R97). -/
inductive HostLine where
  | writeReg (r : Reg) (v : Word)
  | readReg (r : Reg)
  | writeByte (i : Half) (v : Byte)
  | readByte (i : Half)
  | command (c : Instr)
  | load (i : Half) (bytes : List Byte)
  | ops (s d n x : Word)
  | setcfg (ws mws sws : Bool)
  | data64 (v : BitVec 64)
  | crcRange (s n : Word)
  deriving DecidableEq, Repr

end Sys2Proof
end

