-- ==== Sys2Proof/WellFormed.lean ====
section
/-! DEFINITION. What is well formed: a command word field by field (rules R91, R92, R93, R96), a command, a line of a host program (rule R98). -/

namespace Sys2Proof

/-- The three ways an operation uses IMM8 (rule R93). -/
inductive ImmForm where
  | byte
  | flags
  | none
  deriving DecidableEq, Repr

/-- The values of IMM8 a form admits (rule R93). -/
def ImmForm.admits : ImmForm → Byte → Bool
  | .byte, _ => true
  | .flags, imm => imm.extractLsb' 1 7 == 0#7
  | .none, imm => imm == 0#8

/-- The assigned operation codes with their forms; every other code is unassigned (rules R94, R96). -/
def opForm (op : Byte) : Option ImmForm :=
  match op.toNat with
  | 0x01 | 0x03 | 0x04 | 0x05 => some .none
  | 0x02 | 0x06 => some .byte
  | 0x10 | 0x11 | 0x12 => some .none
  | 0x14 | 0x15 | 0x16 => some .none
  | 0x18 | 0x19 | 0x1A => some .none
  | 0x20 | 0x21 => some .flags
  | 0x30 | 0x31 => some .none
  | _ => Option.none

/-- The three fields of a command word (rule R91). -/
structure CmdWord where
  rsv : Half
  imm8 : Byte
  op : Byte
  deriving DecidableEq, Repr

def CmdWord.ofWord (w : Word) : CmdWord :=
  ⟨w.extractLsb' 16 16, w.extractLsb' 8 8, w.extractLsb' 0 8⟩

/-- A command word that is no ILLEGAL one: RSV is 0, the operation is assigned, and its form admits IMM8 (rules R92, R96, R93). -/
def CmdWord.wellFormed (c : CmdWord) : Bool :=
  c.rsv == 0#16 &&
    match opForm c.op with
    | some f => f.admits c.imm8
    | Option.none => false

/-- Every command is well formed: its operand's type holds exactly the values the encoding admits (rule R93). -/
def Instr.wellFormed : Instr → Bool
  | .crcinit | .crcbyte _ | .crcbuf | .crcapp | .crcver | .frmchk _ => true
  | .dec16 | .dec32 | .dec64 | .enc16 | .enc32 | .enc64 => true
  | .perm16 | .perm32 | .perm64 => true
  | .strenc _ | .strdec _ | .bpack | .bunpack => true

/-- `LOAD i, b0 b1 … bk` names at least one byte, and its last position i + k is a buffer position of 16 bits (rules R98, R60 (b)); every other line is well formed. -/
def HostLine.wellFormed : HostLine → Bool
  | .load i bytes => !bytes.isEmpty && decide (i.toNat + bytes.length ≤ 0x10000)
  | .writeReg _ _ | .readReg _ | .writeByte _ _ | .readByte _ | .command _ => true
  | .ops _ _ _ _ | .setcfg _ _ _ | .data64 _ | .crcRange _ _ => true

end Sys2Proof
end

