-- ==== Sys2Proof/Decode.lean ====
section
/-! DEFINITION. The decoder of command words (rule R99), total on every 32-bit word and rejecting by name; the encoder (rules R95, R97); the table of bit patterns (rule R95); the host's entry decodeTableWord. -/

namespace Sys2Proof

/-- Why a word is no command, in the order of precedence of rule R212 (1) to (3); all of them are CmdError(ILLEGAL). -/
inductive Reject where
  /-- RSV, bits [31:16], is not 0 (rule R92). -/
  | reservedBits
  /-- OP is not in the table of rule R94 (rule R96). -/
  | unassignedOp (op : Byte)
  /-- IMM8 is not 0 in a command of the form "none" (rule R93 (c)). -/
  | immNotZero
  /-- IMM8[7:1] is not 0 in a command of the form "flags" (rule R93 (b)). -/
  | flagBitsNotZero
  deriving DecidableEq, Repr

/-- Form "none" (rule R93 (c)). -/
def withNoImm (imm : Byte) (i : Instr) : Except Reject Instr :=
  if imm = 0#8 then .ok i else .error .immNotZero

/-- Form "flags": bit 0 is FIXED, bits 7 to 1 must be 0 (rule R93 (b)). -/
def withFlag (imm : Byte) (i : Bool → Instr) : Except Reject Instr :=
  if imm.extractLsb' 1 7 = 0#7 then .ok (i (imm.getLsbD 0)) else .error .flagBitsNotZero

/-- The case of rule R99 on OP, once RSV is known to be 0. -/
def decodeOp (op imm : Byte) : Except Reject Instr :=
  match op.toNat with
  | 0x01 => withNoImm imm .crcinit
  | 0x02 => .ok (.crcbyte imm)
  | 0x03 => withNoImm imm .crcbuf
  | 0x04 => withNoImm imm .crcapp
  | 0x05 => withNoImm imm .crcver
  | 0x06 => .ok (.frmchk imm)
  | 0x10 => withNoImm imm .dec16
  | 0x11 => withNoImm imm .dec32
  | 0x12 => withNoImm imm .dec64
  | 0x14 => withNoImm imm .enc16
  | 0x15 => withNoImm imm .enc32
  | 0x16 => withNoImm imm .enc64
  | 0x18 => withNoImm imm .perm16
  | 0x19 => withNoImm imm .perm32
  | 0x1A => withNoImm imm .perm64
  | 0x20 => withFlag imm .strenc
  | 0x21 => withFlag imm .strdec
  | 0x30 => withNoImm imm .bpack
  | 0x31 => withNoImm imm .bunpack
  | _ => .error (.unassignedOp op)

/-- The decoder of rule R99: op = w[7:0], imm = w[15:8], and w[31:16] must be 0. -/
def decode (w : Word) : Except Reject Instr :=
  if w.extractLsb' 16 16 ≠ 0#16 then .error .reservedBits
  else decodeOp (w.extractLsb' 0 8) (w.extractLsb' 8 8)

/-- OP of a command (rule R94). -/
def Instr.op : Instr → Byte
  | .crcinit => 0x01
  | .crcbyte _ => 0x02
  | .crcbuf => 0x03
  | .crcapp => 0x04
  | .crcver => 0x05
  | .frmchk _ => 0x06
  | .dec16 => 0x10
  | .dec32 => 0x11
  | .dec64 => 0x12
  | .enc16 => 0x14
  | .enc32 => 0x15
  | .enc64 => 0x16
  | .perm16 => 0x18
  | .perm32 => 0x19
  | .perm64 => 0x1A
  | .strenc _ => 0x20
  | .strdec _ => 0x21
  | .bpack => 0x30
  | .bunpack => 0x31

/-- IMM8 of a command: its byte operand, its flag FIXED in bit 0, or 0 (rules R93, R97). -/
def Instr.imm8 : Instr → Byte
  | .crcbyte imm | .frmchk imm => imm
  | .strenc fixed | .strdec fixed => if fixed then 1#8 else 0#8
  | .crcinit | .crcbuf | .crcapp | .crcver => 0#8
  | .dec16 | .dec32 | .dec64 | .enc16 | .enc32 | .enc64 => 0#8
  | .perm16 | .perm32 | .perm64 | .bpack | .bunpack => 0#8

/-- The word of a command: RSV = 0, IMM8, OP (rules R91, R97). -/
def encode (i : Instr) : Word := 0#16 ++ i.imm8 ++ i.op

/-- A row of the table of rule R95: "A word `w` selects a row when `w & mask == match`". -/
structure TableRow where
  mnemonic : String
  pattern : Word
  mask : Word
  deriving DecidableEq, Repr

/-- The row of a command (rule R95), its mnemonic as the opcode table spells it. -/
def Instr.row : Instr → TableRow
  | .crcinit => ⟨"CRCINIT", 0x00000001, 0xFFFFFFFF⟩
  | .crcbyte _ => ⟨"CRCBYTE", 0x00000002, 0xFFFF00FF⟩
  | .crcbuf => ⟨"CRCBUF", 0x00000003, 0xFFFFFFFF⟩
  | .crcapp => ⟨"CRCAPP", 0x00000004, 0xFFFFFFFF⟩
  | .crcver => ⟨"CRCVER", 0x00000005, 0xFFFFFFFF⟩
  | .frmchk _ => ⟨"FRMCHK", 0x00000006, 0xFFFF00FF⟩
  | .dec16 => ⟨"DEC16", 0x00000010, 0xFFFFFFFF⟩
  | .dec32 => ⟨"DEC32", 0x00000011, 0xFFFFFFFF⟩
  | .dec64 => ⟨"DEC64", 0x00000012, 0xFFFFFFFF⟩
  | .enc16 => ⟨"ENC16", 0x00000014, 0xFFFFFFFF⟩
  | .enc32 => ⟨"ENC32", 0x00000015, 0xFFFFFFFF⟩
  | .enc64 => ⟨"ENC64", 0x00000016, 0xFFFFFFFF⟩
  | .perm16 => ⟨"PERM16", 0x00000018, 0xFFFFFFFF⟩
  | .perm32 => ⟨"PERM32", 0x00000019, 0xFFFFFFFF⟩
  | .perm64 => ⟨"PERM64", 0x0000001A, 0xFFFFFFFF⟩
  | .strenc _ => ⟨"STRENC", 0x00000020, 0xFFFFFEFF⟩
  | .strdec _ => ⟨"STRDEC", 0x00000021, 0xFFFFFEFF⟩
  | .bpack => ⟨"BPACK", 0x00000030, 0xFFFFFFFF⟩
  | .bunpack => ⟨"BUNPACK", 0x00000031, 0xFFFFFFFF⟩

/-- One command of each row, in the table's order (operands at 0). -/
def rowSamples : List Instr :=
  [.crcinit, .crcbyte 0, .crcbuf, .crcapp, .crcver, .frmchk 0] ++
  [.dec16, .dec32, .dec64, .enc16, .enc32, .enc64] ++
  [.perm16, .perm32, .perm64, .strenc false, .strdec false, .bpack, .bunpack]

/-- The table of rule R95. -/
def opcodeTable : List TableRow := rowSamples.map Instr.row

/-- The instruction the decoder reads from an instruction whose bits are w, bit 0 the least significant bit of its one 32-bit word (rule R90); a number that is no 32-bit word is none. -/
def decodeTableWord (nbits w : Nat) : Option Instr :=
  if nbits ≤ 32 ∧ w < 2 ^ 32 then
    match decode (BitVec.ofNat 32 w) with
    | .ok i => some i
    | .error _ => Option.none
  else Option.none

end Sys2Proof
end

