-- ==== Sys2Proof/Machine/State.lean ====
section
/-! DEFINITION. The state of the block (rule R20), the reasons a step can stop, and the state after reset (rules R21, R240, R241). -/

namespace Sys2Proof.Machine

/-- The one reason a run stops. -/
inductive Fault where
  /-- The host or a command read the buffer byte at this position, which nothing has written since reset. Rule R67: "A model treats a `BufRead` of an unwritten byte, by the host or by a command, as a fault of the model". Safe: the hardware goes on with an unspecified byte, of which the model claims nothing (log entry 5). -/
  | unwritten (position : Nat)
  deriving DecidableEq, Repr

/-- The reasons an instruction has no meaning. -/
inductive Refusal where
  /-- Raised by exec alone, for an instruction that has no meaning yet; every instruction has one, so nothing raises it. Safe. -/
  | notModelled (mnemonic : String)
  deriving DecidableEq, Repr

/-- STATUS.ERR, the result code of the last command: "the values 4 to 15 are reserved and the block never writes them" (rule R29). -/
inductive CmdErr where
  | none
  | illegal
  | range
  | arg
  deriving DecidableEq, Repr

/-- STATUS.FRES, the result of the last frame check: "the values 5 to 7 are reserved and never written" (rule R31). -/
inductive FrameResult where
  | none
  | ok
  | short
  | crc
  | exc
  deriving DecidableEq, Repr

/-- The written bytes of BUF (rule R39) as (position, byte), positions strictly rising. A position that is not listed is unwritten (rule R67) and has no value. -/
abbrev Memory := List Host.Cell

/-- The state of rule R20, register by register, with the model's own three fields: the parameter BUF_SIZE, the host's inputs still to come, and the answers given so far. -/
structure State where
  /-- BUF_SIZE (rule R6); no step changes it (log entry 1). -/
  bufSize : BufSize
  /-- CFG[2:0]: WS, MWS, SWS (rules R22, R23, R24). -/
  cfg : BitVec 3
  /-- CRC.ACC (rule R25). -/
  crc : Half
  /-- LEN (rule R26). -/
  len : Half
  /-- STATUS.ERR (rule R29). -/
  err : CmdErr
  /-- STATUS.CRC_OK (rule R30). -/
  crcOk : Bool
  /-- STATUS.FRES (rule R31). -/
  fres : FrameResult
  /-- STATUS.EXC (rule R32). -/
  exc : Byte
  /-- DATA = DATA_HI ++ DATA_LO (rule R33). -/
  data : BitVec 64
  /-- SRC (rule R34). -/
  src : Half
  /-- DST (rule R35). -/
  dst : Half
  /-- CNT (rule R36). -/
  cnt : Half
  /-- AUX (rule R37). -/
  aux : Half
  /-- RLEN (rule R38). -/
  rlen : Half
  /-- BUF (rule R39). -/
  buf : Memory
  /-- What the host does next, oldest first: the program of rule R40 (log entry 2). -/
  inputs : List HostInput
  /-- What the host port has answered, newest first (log entry 3). -/
  replies : List Reply
  deriving DecidableEq, Repr

/-- The state when reset is released, for a given buffer size: every register at its value of rule R21, every byte of BUF unwritten (rules R240, R241). -/
def State.resetOf (size : BufSize) : State where
  bufSize := size
  cfg := 0x1
  crc := 0xFFFF
  len := 0
  err := .none
  crcOk := false
  fres := .none
  exc := 0
  data := 0
  src := 0
  dst := 0
  cnt := 0
  aux := 0
  rlen := 0
  buf := []
  inputs := []
  replies := []

/-- The machine right after reset, at the default buffer size of rule R6; nothing is waiting on the host port. -/
def State.reset : State := State.resetOf BufSize.standard

end Sys2Proof.Machine
end

