-- ==== Sys2Proof/Machine/Ops.lean ====
section
/-! DEFINITION. The named operations over BUF: its canonical form, reading and writing bytes and ranges (rules R10, R66, R67, R78), and the two ways a command ends: completion (rule R214) and a command error (rule R213), which is what the block has in place of taking an exception; it takes no trap and returns from none (rule R218). -/

namespace Sys2Proof.Machine

/-- The outcome of a step or of a command. -/
abbrev Result := Host.Outcome State Fault Refusal

/-- The byte at a position, or nothing if it is unwritten (rules R66, R67). -/
def Memory.read : Memory → Nat → Option Byte
  | [], _ => none
  | (p, b) :: m, a => if a = p then some b else Memory.read m a

/-- Sets the byte at a position, keeping positions strictly rising (rule R66). -/
def Memory.write : Memory → Nat → Byte → Memory
  | [], a, v => [(a, v)]
  | (p, b) :: m, a, v =>
    if a < p then (a, v) :: (p, b) :: m
    else if a = p then (a, v) :: m
    else (p, b) :: Memory.write m a v

/-- `MemWrite(a, n, s)` (rule R10): writes s[k] at a + k. -/
def Memory.writeAll : Memory → Nat → List Byte → Memory
  | m, _, [] => m
  | m, a, b :: bs => Memory.writeAll (Memory.write m a b) (a + 1) bs

/-- Every entry lies at or above a position, and positions rise strictly. -/
def Memory.risesFrom : Nat → Memory → Bool
  | _, [] => true
  | k, (p, _) :: m => decide (k ≤ p) && Memory.risesFrom (p + 1) m

/-- The canonical form: positions strictly rising, so equal buffers are equal lists. (An unlisted position has no value, so no entry can equal it.) -/
def Memory.wf (m : Memory) : Bool := Memory.risesFrom 0 m

/-- Every entry is a position of BUF (rule R39). -/
def Memory.within (size : Nat) (m : Memory) : Bool := m.all fun c => decide (c.1 < size)

/-- `BufRead(i)` (rules R66, R67). -/
def bufRead (s : State) (i : Nat) : Except Fault Byte :=
  match s.buf.read i with
  | some b => .ok b
  | none => .error (.unwritten i)

/-- `MemRead(a, n)` (rule R10), lowest position first. -/
def memRead (s : State) : Nat → Nat → Except Fault (List Byte)
  | _, 0 => .ok []
  | a, n + 1 =>
    match bufRead s a with
    | .error f => .error f
    | .ok b =>
      match memRead s (a + 1) n with
      | .error f => .error f
      | .ok bs => .ok (b :: bs)

/-- `raise CmdError(code)`: sets STATUS.ERR and changes nothing else (rule R213). -/
def cmdError (code : CmdErr) (s : State) : Result := .next { s with err := code }

/-- A command that completes sets STATUS.ERR to NONE after its other writes (rule R214). -/
def complete (s : State) : Result := .next { s with err := .none }

/-- The range (a, n) is accepted when a + n <= BUF_SIZE, on unbounded naturals (rule R78). -/
def requireRange (a n : Nat) (s : State) (k : Result) : Result :=
  if a + n ≤ s.bufSize.val then k else cmdError .range s

/-- An argument check: CmdError(ARG) unless the condition holds (rule R211). -/
def requireArg (ok : Bool) (s : State) (k : Result) : Result :=
  if ok then k else cmdError .arg s

/-- Goes on with a byte or bytes read, or stops with the fault of rule R67. -/
def reading {α : Type} (r : Except Fault α) (k : α → Result) : Result :=
  match r with
  | .ok x => k x
  | .error f => .fault f

/-- The end of a buffer-to-buffer command: the bytes written at DST and their number in RLEN (rule R38). -/
def storeAtDst (out : List Byte) (n : Nat) (s : State) : State :=
  { s with buf := s.buf.writeAll s.dst.toNat out, rlen := BitVec.ofNat 16 n }

end Sys2Proof.Machine
end

