-- ==== Sys2Proof/Machine/Operands.lean ====
section
/-! DEFINITION. The operand forms: the flags of CFG (rules R22 to R24), the length operand of the string commands, and the register words as the host reads and writes them (rules R21, R33, R43, R62). STATUS is put together here from its fields (rule R28). -/

namespace Sys2Proof.Machine

/-- CFG.WS, bit 0 (rule R22). -/
def State.ws (s : State) : Bool := s.cfg.getLsbD 0

/-- CFG.MWS, bit 1 (rule R23). -/
def State.mws (s : State) : Bool := s.cfg.getLsbD 1

/-- CFG.SWS, bit 2 (rule R24). -/
def State.sws (s : State) : Bool := s.cfg.getLsbD 2

/-- The length operand of STRENC and STRDEC: AUX when FIXED is set, else CNT (rules R37, R172, R174). -/
def State.stringLength (s : State) (fixed : Bool) : Nat :=
  if fixed then s.aux.toNat else s.cnt.toNat

/-- The code of STATUS.ERR (rule R29). -/
def CmdErr.code : CmdErr → BitVec 4
  | .none => 0
  | .illegal => 1
  | .range => 2
  | .arg => 3

/-- The code of STATUS.FRES (rule R31). -/
def FrameResult.code : FrameResult → BitVec 3
  | .none => 0
  | .ok => 1
  | .short => 2
  | .crc => 3
  | .exc => 4

/-- STATUS as the host reads it: EXC [23:16], FRES [10:8], CRC_OK [4], ERR [3:0], every other bit 0 (rule R28). -/
def State.status (s : State) : Word :=
  0#8 ++ s.exc ++ 0#5 ++ s.fres.code ++ 0#3 ++ BitVec.ofBool s.crcOk ++ s.err.code

/-- The 32-bit value of a register, reserved bits 0; CMD reads as 0 (rules R43, R62). -/
def State.regRead (s : State) : Reg → Word
  | .cfg => s.cfg.setWidth 32
  | .crc => s.crc.setWidth 32
  | .len => s.len.setWidth 32
  | .cmd => 0
  | .status => s.status
  | .dataLo => s.data.extractLsb' 0 32
  | .dataHi => s.data.extractLsb' 32 32
  | .src => s.src.setWidth 32
  | .dst => s.dst.setWidth 32
  | .cnt => s.cnt.setWidth 32
  | .aux => s.aux.setWidth 32
  | .rlen => s.rlen.setWidth 32

/-- A host write of a register other than CMD: the used bits are stored, reserved bits are ignored, STATUS and RLEN do not change (rule R43). A write to CMD stores nothing (rule R27); what it executes stands in HostPort.lean. -/
def State.regStore (s : State) (v : Word) : Reg → State
  | .cfg => { s with cfg := v.setWidth 3 }
  | .crc => { s with crc := v.setWidth 16 }
  | .len => { s with len := v.setWidth 16 }
  | .cmd => s
  | .status => s
  | .dataLo => { s with data := s.data.extractLsb' 32 32 ++ v }
  | .dataHi => { s with data := v ++ s.data.extractLsb' 0 32 }
  | .src => { s with src := v.setWidth 16 }
  | .dst => { s with dst := v.setWidth 16 }
  | .cnt => { s with cnt := v.setWidth 16 }
  | .aux => { s with aux := v.setWidth 16 }
  | .rlen => s

end Sys2Proof.Machine
end

