-- ==== Sys2Proof/Machine/Flags.lean ====
section
/-! DEFINITION. The computation of the CRC (rules R110, R111) and of the STATUS fields that record results: CRC_OK (rule R30) and the verdict of a frame check (rules R31, R32). -/

namespace Sys2Proof.Machine

/-- One shift of rule R110: the test is on the bit the shift removes. -/
def crcShift (c : Half) : Half :=
  if c.getLsbD 0 then (c >>> 1) ^^^ 0xA001#16 else c >>> 1

/-- `crc_step` (rule R110): the byte into the low byte, then eight shifts. -/
def crcStep (c : Half) (b : Byte) : Half :=
  Nat.repeat crcShift 8 (c ^^^ b.setWidth 16)

/-- `crc(s, init)`, the left fold (rule R111). -/
def crc (bytes : List Byte) (init : Half) : Half := bytes.foldl crcStep init

/-- `crc16(s) = crc(s, 0xFFFF)` (rule R111). -/
def crc16 (bytes : List Byte) : Half := crc bytes 0xFFFF#16

/-- The byte of a CRC that goes first on the wire, CRC[7:0] (rule R69). -/
def crcLo (c : Half) : Byte := c.extractLsb' 0 8

/-- The byte of a CRC that goes second on the wire, CRC[15:8] (rule R69). -/
def crcHi (c : Half) : Byte := c.extractLsb' 8 8

/-- CRC_OK for the two trailing bytes of a frame, low byte first (rules R30, R117). -/
def trailerMatches (c : Half) (lo hi : Byte) : Bool := lo == crcLo c && hi == crcHi c

/-- The STATUS fields a completed frame check writes, all three together (rules R30, R31, R32, R191). -/
def State.withVerdict (s : State) (ok : Bool) (result : FrameResult) (code : Byte) : State :=
  { s with crcOk := ok, fres := result, exc := code }

end Sys2Proof.Machine
end

