-- ==== Sys2Proof/Machine/Crc.lean ====
section
/-! DEFINITION. The CRC family: CRCINIT, CRCBYTE, CRCBUF, CRCAPP, CRCVER (40_crc.md). -/

namespace Sys2Proof.Machine

/-- CRCINIT (rule R113). -/
def execCrcinit (s : State) : Result := complete { s with crc := 0xFFFF }

/-- CRCBYTE imm (rule R114). -/
def execCrcbyte (imm : Byte) (s : State) : Result :=
  complete { s with crc := crcStep s.crc imm }

/-- CRCBUF (rule R115). -/
def execCrcbuf (s : State) : Result :=
  requireRange s.src.toNat s.cnt.toNat s <|
  reading (memRead s s.src.toNat s.cnt.toNat) fun bytes =>
  complete { s with crc := crc bytes s.crc }

/-- CRCAPP (rule R116): the CRC low byte first after the frame, LEN longer by 2. -/
def execCrcapp (s : State) : Result :=
  requireRange 0 (s.len.toNat + 2) s <|
  reading (memRead s 0 s.len.toNat) fun frame =>
  let c := crc16 frame
  complete { s with
    buf := (s.buf.write s.len.toNat (crcLo c)).write (s.len.toNat + 1) (crcHi c)
    len := BitVec.ofNat 16 (s.len.toNat + 2)
    crc := c }

/-- The comparison CRCVER and FRMCHK share (rules R117, R191): the CRC of the first L - 2 bytes of the frame against its last two bytes, both of which are read. It goes on with the CRC and the answer. -/
def checkTrailer (s : State) (k : Half → Bool → Result) : Result :=
  reading (memRead s 0 (s.len.toNat - 2)) fun body =>
  reading (bufRead s (s.len.toNat - 2)) fun lo =>
  reading (bufRead s (s.len.toNat - 1)) fun hi =>
  k (crc16 body) (trailerMatches (crc16 body) lo hi)

/-- CRCVER (rule R117): a frame of fewer than 2 bytes has no CRC to match. -/
def execCrcver (s : State) : Result :=
  requireRange 0 s.len.toNat s <|
  if s.len.toNat < 2 then complete { s with crcOk := false }
  else checkTrailer s fun c ok => complete { s with crcOk := ok, crc := c }

end Sys2Proof.Machine
end

