-- ==== Sys2Proof/Machine/FrameCheck.lean ====
section
/-! DEFINITION. The RTU frame validator FRMCHK (43_frame_check.md). -/

namespace Sys2Proof.Machine

/-- FRMCHK imm (rule R191): length, then CRC, then the exception test by equality with e | 0x80 (rule R195). BUF and LEN do not change. -/
def execFrmchk (e : Byte) (s : State) : Result :=
  requireRange 0 s.len.toNat s <|
  if s.len.toNat < 5 then complete (s.withVerdict false .short 0)
  else checkTrailer s fun c ok =>
    let s' := { s with crc := c }
    if ok then
      reading (bufRead s 1) fun fc =>
      if fc = e ||| 0x80#8 then
        reading (bufRead s 2) fun code => complete (s'.withVerdict true .exc code)
      else complete (s'.withVerdict true .ok 0)
    else complete (s'.withVerdict false .crc 0)

end Sys2Proof.Machine
end

