-- ==== Sys2Proof/Machine/Transform.lean ====
section
/-! DEFINITION. The byte-order word-swap adapter: DEC16/32/64, ENC16/32/64, PERM16/32/64 (41_transform.md). -/

namespace Sys2Proof.Machine

/-- Swaps the two bytes of each pair: "Swap the two bytes within each 16-bit word." A last byte with no partner stays. -/
def swapPairs : List Byte → List Byte
  | a :: b :: rest => b :: a :: swapPairs rest
  | rest => rest

/-- Reverses the order of the 16-bit words, each word's bytes in place. -/
def reverseWords : List Byte → List Byte
  | a :: b :: rest => reverseWords rest ++ [a, b]
  | rest => rest

/-- `perm_N(s, ws, mws)` (rule R141): word swap, then, for N in {2, 4}, multi-word swap. -/
def perm (n : Nat) (bytes : List Byte) (ws mws : Bool) : List Byte :=
  let t := if ws then swapPairs bytes else bytes
  if mws && (n == 2 || n == 4) then reverseWords t else t

/-- Bytes read big-endian at a width: the first byte is the most significant (rule R142). -/
def ofBigEndian (width : Nat) (bytes : List Byte) : BitVec width :=
  bytes.foldl (fun acc b => (acc <<< 8) ||| b.setWidth width) 0#width

/-- `decode_N(s, ws, mws)` (rule R142). -/
def decodeScalar (n : Nat) (bytes : List Byte) (ws mws : Bool) : BitVec (16 * n) :=
  ofBigEndian (16 * n) (perm n bytes ws mws)

/-- `be_N(v)` (rule R143): byte i is v[8(2N-1-i)+7 : 8(2N-1-i)]. -/
def bigEndian (n : Nat) (v : BitVec (16 * n)) : List Byte :=
  (List.range (2 * n)).map fun i => v.extractLsb' (8 * (2 * n - 1 - i)) 8

/-- `encode_N(v, ws, mws) = perm_N(be_N(v), ws, mws)` (rule R143). -/
def encodeScalar (n : Nat) (v : BitVec (16 * n)) (ws mws : Bool) : List Byte :=
  perm n (bigEndian n v) ws mws

/-- `perm_N` on each of m consecutive elements of 2N bytes (rule R157). -/
def permArray (n : Nat) : Nat → List Byte → Bool → Bool → List Byte
  | 0, _, _, _ => []
  | m + 1, bytes, ws, mws =>
    perm n (bytes.take (2 * n)) ws mws ++ permArray n m (bytes.drop (2 * n)) ws mws

/-- DEC of an N-word scalar (rules R147, R148, R149): the zero-extended pattern into DATA. -/
def decodeToData (n : Nat) (s : State) : Result :=
  requireRange s.src.toNat (2 * n) s <|
  reading (memRead s s.src.toNat (2 * n)) fun bytes =>
  complete { s with data := (decodeScalar n bytes s.ws s.mws).setWidth 64 }

/-- ENC of an N-word scalar (rules R150, R151, R152): DATA[16N-1:0] to the buffer at DST. -/
def encodeFromData (n : Nat) (s : State) : Result :=
  requireRange s.dst.toNat (2 * n) s <|
  complete { s with
    buf := s.buf.writeAll s.dst.toNat (encodeScalar n (s.data.setWidth (16 * n)) s.ws s.mws) }

/-- PERM of CNT elements of N words (rules R153, R154, R155); the whole source is read first (rule R79). -/
def permuteArray (n : Nat) (s : State) : Result :=
  let len := 2 * n * s.cnt.toNat
  requireRange s.src.toNat len s <|
  requireRange s.dst.toNat len s <|
  reading (memRead s s.src.toNat len) fun bytes =>
  complete (storeAtDst (permArray n s.cnt.toNat bytes s.ws s.mws) len s)

/-- DEC16 (rule R147). -/
def execDec16 (s : State) : Result := decodeToData 1 s

/-- DEC32 (rule R148). -/
def execDec32 (s : State) : Result := decodeToData 2 s

/-- DEC64 (rule R149). -/
def execDec64 (s : State) : Result := decodeToData 4 s

/-- ENC16 (rule R150). -/
def execEnc16 (s : State) : Result := encodeFromData 1 s

/-- ENC32 (rule R151). -/
def execEnc32 (s : State) : Result := encodeFromData 2 s

/-- ENC64 (rule R152). -/
def execEnc64 (s : State) : Result := encodeFromData 4 s

/-- PERM16 (rule R153). -/
def execPerm16 (s : State) : Result := permuteArray 1 s

/-- PERM32 (rule R154). -/
def execPerm32 (s : State) : Result := permuteArray 2 s

/-- PERM64 (rule R155). -/
def execPerm64 (s : State) : Result := permuteArray 4 s

end Sys2Proof.Machine
end

