-- ==== Sys2Proof/Machine/StringBool.lean ====
section
/-! DEFINITION. The string byte path and boolean packing: STRENC, STRDEC, BPACK, BUNPACK (42_string_bool.md). -/

namespace Sys2Proof.Machine

/-- L bytes of a string: "truncated on long", "zero-filled on short" (rule R171). -/
def resize (bytes : List Byte) (len : Nat) : List Byte :=
  if len ≤ bytes.length then bytes.take len
  else bytes ++ List.replicate (len - bytes.length) 0#8

/-- `str_encode(s, L, sws)` (rule R171): the fixed length first, the even padding second, then the swap of each pair. -/
def strEncode (bytes : List Byte) (len : Nat) (sws : Bool) : List Byte :=
  let r := resize bytes len
  let r := if len % 2 = 1 then r ++ [0#8] else r
  if sws then swapPairs r else r

/-- `str_decode(s, L, sws)` (rule R173): the swap undone first, then the cut to length. -/
def strDecode (bytes : List Byte) (len : Nat) (sws : Bool) : List Byte :=
  (if sws then swapPairs bytes else bytes).take len

/-- Up to eight bytes as bits of one byte, the first in bit 0; a byte is true when it is nonzero (rule R176). -/
def packByte : List Byte → Byte
  | [] => 0#8
  | b :: rest => (packByte rest <<< 1) ||| (if b = 0#8 then 0#8 else 1#8)

/-- The number of bytes that m bits pack into (rule R176). -/
def packedLength (m : Nat) : Nat := (m + 7) / 8

/-- `pack(bits)` (rule R176). -/
def pack (bits : List Byte) : List Byte :=
  (List.range (packedLength bits.length)).map fun j => packByte ((bits.drop (8 * j)).take 8)

/-- `unpack(p, m)` (rule R176); p holds (m + 7) div 8 bytes, so every index is in it. -/
def unpack (packed : List Byte) (m : Nat) : List Byte :=
  (List.range m).map fun i => if (packed.getD (i / 8) 0#8).getLsbD (i % 8) then 1#8 else 0#8

/-- STRENC and STRENC.F (rule R172). -/
def execStrenc (fixed : Bool) (s : State) : Result :=
  let len := s.stringLength fixed
  let out := len + len % 2
  requireRange s.src.toNat s.cnt.toNat s <|
  requireRange s.dst.toNat out s <|
  reading (memRead s s.src.toNat s.cnt.toNat) fun bytes =>
  complete (storeAtDst (strEncode bytes len s.sws) out s)

/-- STRDEC and STRDEC.F (rule R174): ARG comes after both ranges (rule R212). -/
def execStrdec (fixed : Bool) (s : State) : Result :=
  let len := s.stringLength fixed
  requireRange s.src.toNat s.cnt.toNat s <|
  requireRange s.dst.toNat len s <|
  requireArg (decide (s.cnt.toNat % 2 = 0)) s <|
  requireArg (decide (len ≤ s.cnt.toNat)) s <|
  reading (memRead s s.src.toNat s.cnt.toNat) fun bytes =>
  complete (storeAtDst (strDecode bytes len s.sws) len s)

/-- BPACK (rule R177). -/
def execBpack (s : State) : Result :=
  let nb := packedLength s.cnt.toNat
  requireRange s.src.toNat s.cnt.toNat s <|
  requireRange s.dst.toNat nb s <|
  reading (memRead s s.src.toNat s.cnt.toNat) fun bits =>
  complete (storeAtDst (pack bits) nb s)

/-- BUNPACK (rule R179). -/
def execBunpack (s : State) : Result :=
  let nb := packedLength s.cnt.toNat
  requireRange s.src.toNat nb s <|
  requireRange s.dst.toNat s.cnt.toNat s <|
  reading (memRead s s.src.toNat nb) fun packed =>
  complete (storeAtDst (unpack packed s.cnt.toNat) s.cnt.toNat s)

end Sys2Proof.Machine
end

