-- ==== Sys2Proof/Machine/Dispatch.lean ====
section
/-! DEFINITION. The dispatch: one arm for each command, one call of its meaning (rule R99). -/

namespace Sys2Proof.Machine

def exec (i : Instr) (s : State) : Host.Outcome State Fault Refusal :=
  match i with
  | .crcinit => Sys2Proof.Machine.execCrcinit s
  | .crcbyte imm => Sys2Proof.Machine.execCrcbyte imm s
  | .crcbuf => Sys2Proof.Machine.execCrcbuf s
  | .crcapp => Sys2Proof.Machine.execCrcapp s
  | .crcver => Sys2Proof.Machine.execCrcver s
  | .frmchk imm => Sys2Proof.Machine.execFrmchk imm s
  | .dec16 => Sys2Proof.Machine.execDec16 s
  | .dec32 => Sys2Proof.Machine.execDec32 s
  | .dec64 => Sys2Proof.Machine.execDec64 s
  | .enc16 => Sys2Proof.Machine.execEnc16 s
  | .enc32 => Sys2Proof.Machine.execEnc32 s
  | .enc64 => Sys2Proof.Machine.execEnc64 s
  | .perm16 => Sys2Proof.Machine.execPerm16 s
  | .perm32 => Sys2Proof.Machine.execPerm32 s
  | .perm64 => Sys2Proof.Machine.execPerm64 s
  | .strenc fixed => Sys2Proof.Machine.execStrenc fixed s
  | .strdec fixed => Sys2Proof.Machine.execStrdec fixed s
  | .bpack => Sys2Proof.Machine.execBpack s
  | .bunpack => Sys2Proof.Machine.execBunpack s

end Sys2Proof.Machine
end

