-- ==== Sys2Proof/Machine/HostPort.lean ====
section
/-! DEFINITION. The host port: the map of the host space (rules R21, R61 to R64), the execution of a command word written to CMD (rule R99), one host access (rules R62 to R65, R216), and the reset input (rules R240, R241). -/

namespace Sys2Proof.Machine

/-- A host write of w to CMD (rule R99): the command it encodes, or CmdError(ILLEGAL). -/
def execWord (w : Word) (s : State) : Result :=
  match decode w with
  | .ok i => exec i s
  | .error _ => cmdError .illegal s

/-- The offset of a register (rule R21). -/
def regOffset : Reg → Offset
  | .cfg => 0x00
  | .crc => 0x04
  | .len => 0x08
  | .cmd => 0x0C
  | .status => 0x10
  | .dataLo => 0x14
  | .dataHi => 0x18
  | .src => 0x1C
  | .dst => 0x20
  | .cnt => 0x24
  | .aux => 0x28
  | .rlen => 0x2C

/-- The register at an offset (rule R21); none at an offset that is no register's, which an aligned offset below 0x30 never is. -/
def regAt (off : Offset) : Option Reg :=
  match off.toNat with
  | 0x00 => some .cfg
  | 0x04 => some .crc
  | 0x08 => some .len
  | 0x0C => some .cmd
  | 0x10 => some .status
  | 0x14 => some .dataLo
  | 0x18 => some .dataHi
  | 0x1C => some .src
  | 0x20 => some .dst
  | 0x24 => some .cnt
  | 0x28 => some .aux
  | 0x2C => some .rlen
  | _ => none

/-- The offset of BUF[0] in the host space (rule R61). -/
def windowBase : Nat := 0x10000

/-- The position of BUF that an offset names, for a buffer of a given size; none outside the window (rule R61). -/
def windowAt (size : Nat) (off : Offset) : Option Nat :=
  if windowBase ≤ off.toNat ∧ off.toNat < windowBase + size then some (off.toNat - windowBase)
  else none

/-- A host read (rules R62, R63): the reply, or the fault of a read of an unwritten byte (rule R67). A rejected read gives no data (rule R216). -/
def hostRead (width : Width) (off : Offset) (s : State) : Except Fault Reply :=
  match width with
  | .w32 =>
    match regAt off with
    | some r => .ok (.data (.b32 (s.regRead r)))
    | none => .ok .busError
  | .w16 => .ok .busError
  | .w8 =>
    match windowAt s.bufSize.val off with
    | some i =>
      match bufRead s i with
      | .ok b => .ok (.data (.b8 b))
      | .error f => .error f
    | none => .ok .busError

/-- Records an answer of the host port. -/
def State.reply (s : State) (r : Reply) : State := { s with replies := r :: s.replies }

/-- A command's outcome, with its CMD write accepted on the bus (rules R27, R72): a command error is no bus error (rule R219). -/
def accept : Result → Result
  | .next s => .next (s.reply .accepted)
  | .fault f => .fault f
  | .refused r => .refused r

/-- A host write of 32 bits to a register (rules R27, R43, R62). -/
def regWrite (r : Reg) (v : Word) (s : State) : Result :=
  match r with
  | .cmd => execWord v s
  | .cfg | .crc | .len | .status | .dataLo | .dataHi => .next (s.regStore v r)
  | .src | .dst | .cnt | .aux | .rlen => .next (s.regStore v r)

/-- A host write (rules R62, R63, R64): performed and accepted, or rejected with no effect (rule R216). -/
def hostWrite (off : Offset) (v : BusData) (s : State) : Result :=
  match v with
  | .b32 w =>
    match regAt off with
    | some r => accept (regWrite r w s)
    | none => .next (s.reply .busError)
  | .b16 _ => .next (s.reply .busError)
  | .b8 b =>
    match windowAt s.bufSize.val off with
    | some i => accept (.next { s with buf := s.buf.write i b })
    | none => .next (s.reply .busError)

/-- One host access, to completion (rule R72). -/
def access (a : HostAccess) (s : State) : Result :=
  match a with
  | .read width off => reading (hostRead width off s) fun r => .next (s.reply r)
  | .write off v => hostWrite off v s

/-- The reset input, asserted and released (rules R240, R241): every register at its reset value and every byte of BUF unwritten; the buffer keeps its size, and what the host has seen and will do is the host's. -/
def resetInput (s : State) : State :=
  { State.resetOf s.bufSize with inputs := s.inputs, replies := s.replies }

/-- What the block does with one input. -/
def takeInput (e : HostInput) (s : State) : Result :=
  match e with
  | .access a => access a s
  | .reset => .next (resetInput s)

/-- The host access that issues a command word: a 32-bit write to CMD (rule R27). -/
def cmdWrite (w : Word) : HostInput := .access (.write (regOffset .cmd) (.b32 w))

end Sys2Proof.Machine
end

