-- ==== Sys2Proof/Machine/Step.lean ====
section
/-! DEFINITION. One step: the next host input, to completion (rules R72, R74); with none waiting, the block waits (rules R224, R242). -/

namespace Sys2Proof.Machine

/-- The block has no program counter: its program is the sequence of host accesses (rule R40), of which a step takes the next one. -/
def step (s : State) : Host.Outcome State Fault Refusal :=
  match s.inputs with
  | [] => .next s
  | e :: rest => takeInput e { s with inputs := rest }

/-- s with a command word as the host's next access, a 32-bit write of it to CMD (rule R27); the accesses that were waiting come after it. The table gives every row 32 bits, so nbits says nothing more. -/
def State.withFetchWord (s : State) (_nbits w : Nat) : State :=
  { s with inputs := cmdWrite (BitVec.ofNat 32 w) :: s.inputs }

end Sys2Proof.Machine
end

