-- ==== Sys2Proof/Machine/HostProgram.lean ====
section
/-! DEFINITION. Host programs: the accesses each line of rule R98 stands for, and a program placed on the host port. -/

namespace Sys2Proof.Machine

/-- `W REG, v` (rule R98). -/
def writeReg (r : Reg) (v : Word) : HostAccess := .write (regOffset r) (.b32 v)

/-- "host offset 0x10000 + i" (rule R98). -/
def byteOffset (i : Nat) : Offset := BitVec.ofNat 17 (windowBase + i)

/-- `WB i, b0; WB i+1, b1; …` (rule R98, LOAD). -/
def writeBytes : Nat → List Byte → List HostAccess
  | _, [] => []
  | i, b :: bs => .write (byteOffset i) (.b8 b) :: writeBytes (i + 1) bs

/-- `ws | (mws << 1) | (sws << 2)` (rule R98, SETCFG). -/
def cfgWord (ws mws sws : Bool) : Word :=
  (BitVec.ofBool sws ++ BitVec.ofBool mws ++ BitVec.ofBool ws).setWidth 32

/-- The host accesses of a line, in order (rule R98). -/
def lineAccesses : HostLine → List HostAccess
  | .writeReg r v => [writeReg r v]
  | .readReg r => [.read .w32 (regOffset r)]
  | .writeByte i v => [.write (byteOffset i.toNat) (.b8 v)]
  | .readByte i => [.read .w8 (byteOffset i.toNat)]
  | .command c => [writeReg .cmd (encode c)]
  | .load i bytes => writeBytes i.toNat bytes
  | .ops s d n x => [writeReg .src s, writeReg .dst d, writeReg .cnt n, writeReg .aux x]
  | .setcfg ws mws sws => [writeReg .cfg (cfgWord ws mws sws)]
  | .data64 v => [writeReg .dataLo (v.extractLsb' 0 32), writeReg .dataHi (v.extractLsb' 32 32)]
  | .crcRange s n =>
    [writeReg .src s, writeReg .cnt n, writeReg .cmd (encode .crcinit), writeReg .cmd (encode .crcbuf)]

/-- The accesses of a whole program, one line after the other. -/
def programAccesses (p : List HostLine) : List HostAccess := p.flatMap lineAccesses

/-- A program placed on the host port, after whatever is waiting there (log entry 2). -/
def State.withProgram (s : State) (p : List HostLine) : State :=
  { s with inputs := s.inputs ++ (programAccesses p).map .access }

/-- The accesses of a list performed one after the other, each to completion (rule R74), with no other input between them. -/
def accessAll : List HostAccess → State → Result
  | [], s => .next s
  | a :: rest, s =>
    match access a s with
    | .next t => accessAll rest t
    | .fault f => .fault f
    | .refused r => .refused r

end Sys2Proof.Machine
end

