-- ==== Sys2Proof/Machine/Views.lean ====
section
/-! DEFINITION. How the host reads what the block holds: the typed views of DATA (rule R146), the parts of a frame (rules R190, R193) and the meaning of an exception code (rule R192). No command depends on a view. -/

namespace Sys2Proof.Machine

/-- The pattern DATA[16N-1:0] of an N-word scalar (rule R146); a float32 or float64 is the IEEE-754 value this pattern encodes. -/
def State.pattern (s : State) (n : Nat) : BitVec (16 * n) := s.data.setWidth (16 * n)

/-- uintW: "the natural number of v" (rule R146). -/
def State.uintView (s : State) (n : Nat) : Nat := (s.pattern n).toNat

/-- intW: "v read as two's complement" (rule R146; log entry 10). -/
def State.intView (s : State) (n : Nat) : Int := (s.pattern n).toInt

/-- `sext_64(v)`, "when a signed 64-bit value is wanted" (rule R146; log entry 10). -/
def State.signed64 (s : State) (n : Nat) : BitVec 64 := (s.pattern n).signExtend 64

/-- Byte i of the frame in BUF[0..LEN); none when LEN <= i, where no frame has it (DESIGN CHOICE: rule R190 speaks of a frame only; log entry 16). -/
def State.frameByte (s : State) (i : Nat) : Option Byte :=
  if i < s.len.toNat then s.buf.read i else none

/-- The station, BUF[0] (rule R190); none when LEN = 0 (DESIGN CHOICE; log entry 16). -/
def State.station (s : State) : Option Byte := s.frameByte 0

/-- The function code, BUF[1] (rule R190); none when LEN < 2 (DESIGN CHOICE; log entry 16). -/
def State.functionCode (s : State) : Option Byte := s.frameByte 1

/-- A byte of the frame's CRC, a distance before the end of BUF[0..LEN); none when LEN < 2, where no frame has CRC bytes (DESIGN CHOICE: rule R190 speaks of a frame only; log entry 16). -/
def State.frameCrcByte (s : State) (fromEnd : Nat) : Option Byte :=
  if 2 ≤ s.len.toNat then s.frameByte (s.len.toNat - fromEnd) else none

/-- The CRC low byte of the frame, BUF[LEN-2] (rule R190); none when LEN < 2 (log entry 16). -/
def State.frameCrcLo (s : State) : Option Byte := s.frameCrcByte 2

/-- The CRC high byte of the frame, BUF[LEN-1] (rule R190); none when LEN < 2 (log entry 16). -/
def State.frameCrcHi (s : State) : Option Byte := s.frameCrcByte 1

/-- The number of bytes of the body BUF[0..LEN-2), which rule R193 gives when FRES = OK. The view does not look at FRES, and is 0 when LEN < 2 (DESIGN CHOICE; log entry 16). -/
def State.bodyLength (s : State) : Nat := s.len.toNat - 2

/-- Where the payload of a read response (FC 01 to 04) starts (rule R193); for another function code the spec gives no payload, and the view gives the same number (DESIGN CHOICE; log entry 16). -/
def payloadStart : Nat := 3

/-- "LEN - 5 bytes", which rule R193 gives for a read response (FC 01 to 04) when FRES = OK. The view looks at neither FRES nor the function code, and is 0 when LEN < 5 (DESIGN CHOICE; log entry 16). -/
def State.payloadLength (s : State) : Nat := s.len.toNat - 5

/-- The meanings of rule R192's table. -/
inductive ExceptionMeaning where
  | illegalFunction
  | illegalDataAddress
  | illegalDataValue
  | serverDeviceFailure
  | acknowledge
  | serverDeviceBusy
  | memoryParityError
  | gatewayPathUnavailable
  | gatewayTargetFailedToRespond
  deriving DecidableEq, Repr

/-- The meaning of an exception code; a value outside the table has none (rule R192). -/
def exceptionMeaning (code : Byte) : Option ExceptionMeaning :=
  match code.toNat with
  | 0x01 => some .illegalFunction
  | 0x02 => some .illegalDataAddress
  | 0x03 => some .illegalDataValue
  | 0x04 => some .serverDeviceFailure
  | 0x05 => some .acknowledge
  | 0x06 => some .serverDeviceBusy
  | 0x08 => some .memoryParityError
  | 0x0A => some .gatewayPathUnavailable
  | 0x0B => some .gatewayTargetFailedToRespond
  | _ => none

end Sys2Proof.Machine
end

