-- ==== Sys2Proof/Safety.lean ====
section
/-! DEFINITION. The terms the statements use: what a range of BUF holds, what each command reads, writes and checks, when a command is safe to issue (rule R243), and the invariant of the block. -/

namespace Sys2Proof.Machine

/-- BUF[a .. a + length) holds these bytes. -/
def Holds (m : Memory) (a : Nat) (bytes : List Byte) : Prop :=
  ∀ k b, bytes[k]? = some b → m.read (a + k) = some b

/-- Every position of the range (a, n) is written. -/
def Written (m : Memory) (a n : Nat) : Prop :=
  ∀ p, a ≤ p → p < a + n → (m.read p).isSome = true

/-- The lowest unwritten position of the range (a, n). -/
def FirstUnwritten (m : Memory) (a n p : Nat) : Prop :=
  a ≤ p ∧ p < a + n ∧ m.read p = none ∧ ∀ q, a ≤ q → q < p → (m.read q).isSome = true

/-- Every position outside the range (a, n) reads as before. -/
def SameOutside (m m' : Memory) (a n : Nat) : Prop :=
  ∀ p, (p < a ∨ a + n ≤ p) → m'.read p = m.read p

/-- From m to m', the bytes are stored at a and no other position changes. -/
def Stores (m m' : Memory) (a : Nat) (bytes : List Byte) : Prop :=
  Holds m' a bytes ∧ SameOutside m m' a bytes.length

/-- Two buffers that read alike at every position, written or not. -/
def SameBytes (m m' : Memory) : Prop := ∀ p, m'.read p = m.read p

/-- The source range of a command, (position, count), as its rule's pseudocode reads it; (0, 0) where it reads no byte. -/
def readRange : Instr → State → Nat × Nat
  | .crcinit, _ | .crcbyte _, _ => (0, 0)
  | .crcbuf, s => (s.src.toNat, s.cnt.toNat)
  | .crcapp, s => (0, s.len.toNat)
  | .crcver, s => (0, if s.len.toNat < 2 then 0 else s.len.toNat)
  | .frmchk _, s => (0, if s.len.toNat < 5 then 0 else s.len.toNat)
  | .dec16, s => (s.src.toNat, 2)
  | .dec32, s => (s.src.toNat, 4)
  | .dec64, s => (s.src.toNat, 8)
  | .enc16, _ | .enc32, _ | .enc64, _ => (0, 0)
  | .perm16, s => (s.src.toNat, 2 * s.cnt.toNat)
  | .perm32, s => (s.src.toNat, 4 * s.cnt.toNat)
  | .perm64, s => (s.src.toNat, 8 * s.cnt.toNat)
  | .strenc _, s | .strdec _, s => (s.src.toNat, s.cnt.toNat)
  | .bpack, s => (s.src.toNat, s.cnt.toNat)
  | .bunpack, s => (s.src.toNat, (s.cnt.toNat + 7) / 8)

/-- The range of BUF a completed command writes, (position, count); (0, 0) where it writes no byte. -/
def writeRange : Instr → State → Nat × Nat
  | .crcinit, _ | .crcbyte _, _ | .crcbuf, _ | .crcver, _ | .frmchk _, _ => (0, 0)
  | .crcapp, s => (s.len.toNat, 2)
  | .dec16, _ | .dec32, _ | .dec64, _ => (0, 0)
  | .enc16, s => (s.dst.toNat, 2)
  | .enc32, s => (s.dst.toNat, 4)
  | .enc64, s => (s.dst.toNat, 8)
  | .perm16, s => (s.dst.toNat, 2 * s.cnt.toNat)
  | .perm32, s => (s.dst.toNat, 4 * s.cnt.toNat)
  | .perm64, s => (s.dst.toNat, 8 * s.cnt.toNat)
  | .strenc false, s => (s.dst.toNat, s.cnt.toNat + s.cnt.toNat % 2)
  | .strenc true, s => (s.dst.toNat, s.aux.toNat + s.aux.toNat % 2)
  | .strdec false, s => (s.dst.toNat, s.cnt.toNat)
  | .strdec true, s => (s.dst.toNat, s.aux.toNat)
  | .bpack, s => (s.dst.toNat, (s.cnt.toNat + 7) / 8)
  | .bunpack, s => (s.dst.toNat, s.cnt.toNat)

/-- Every range a command's pseudocode checks, in its order (rule R211). -/
def checkedRanges : Instr → State → List (Nat × Nat)
  | .crcinit, _ | .crcbyte _, _ => []
  | .crcbuf, s => [(s.src.toNat, s.cnt.toNat)]
  | .crcapp, s => [(0, s.len.toNat + 2)]
  | .crcver, s | .frmchk _, s => [(0, s.len.toNat)]
  | .dec16, s => [(s.src.toNat, 2)]
  | .dec32, s => [(s.src.toNat, 4)]
  | .dec64, s => [(s.src.toNat, 8)]
  | .enc16, s => [(s.dst.toNat, 2)]
  | .enc32, s => [(s.dst.toNat, 4)]
  | .enc64, s => [(s.dst.toNat, 8)]
  | .perm16, s => [(s.src.toNat, 2 * s.cnt.toNat), (s.dst.toNat, 2 * s.cnt.toNat)]
  | .perm32, s => [(s.src.toNat, 4 * s.cnt.toNat), (s.dst.toNat, 4 * s.cnt.toNat)]
  | .perm64, s => [(s.src.toNat, 8 * s.cnt.toNat), (s.dst.toNat, 8 * s.cnt.toNat)]
  | .strenc fixed, s => [(s.src.toNat, s.cnt.toNat), writeRange (.strenc fixed) s]
  | .strdec fixed, s => [(s.src.toNat, s.cnt.toNat), writeRange (.strdec fixed) s]
  | .bpack, s => [(s.src.toNat, s.cnt.toNat), (s.dst.toNat, (s.cnt.toNat + 7) / 8)]
  | .bunpack, s => [(s.src.toNat, (s.cnt.toNat + 7) / 8), (s.dst.toNat, s.cnt.toNat)]

/-- Rule R78 for every range a command checks. -/
def rangesFit (i : Instr) (s : State) : Bool :=
  (checkedRanges i s).all fun r => decide (r.1 + r.2 ≤ s.bufSize.val)

/-- The causes of ARG do not hold: STRDEC wants an even CNT and a result no longer than it (rule R211). -/
def argumentsFit : Instr → State → Bool
  | .strdec fixed, s =>
    decide (s.cnt.toNat % 2 = 0) && decide ((writeRange (.strdec fixed) s).2 ≤ s.cnt.toNat)
  | .crcinit, _ | .crcbyte _, _ | .crcbuf, _ | .crcapp, _ | .crcver, _ | .frmchk _, _ => true
  | .dec16, _ | .dec32, _ | .dec64, _ | .enc16, _ | .enc32, _ | .enc64, _ => true
  | .perm16, _ | .perm32, _ | .perm64, _ | .strenc _, _ | .bpack, _ | .bunpack, _ => true

/-- The one error a command reports, NONE if it completes: RANGE before ARG (rules R211, R212). -/
def commandError (i : Instr) (s : State) : CmdErr :=
  if !rangesFit i s then .range else if !argumentsFit i s then .arg else .none

/-- The host has written every BUF byte the command reads (rule R243 (a)). -/
def Ready (i : Instr) (s : State) : Prop := Written s.buf (readRange i s).1 (readRange i s).2

/-- A safe outcome: the run goes on. -/
def Safe (r : Result) : Prop := ∃ t, r = .next t

/-- The word selects the command: a host write of it to CMD executes that command (rules R95, R99). -/
def Selects (w : Word) (i : Instr) : Prop := ∀ s, execWord w s = exec i s

/-- Every word with this OP whose RSV is not 0, or whose IMM8 is not one of the legal ones, raises CmdError(ILLEGAL) and changes nothing else (rules R92, R93, R213). -/
def IllegalUnless (op : Byte) (legal : Byte → Prop) : Prop :=
  ∀ (w : Word) (s : State), w.extractLsb' 0 8 = op →
    (w.extractLsb' 16 16 ≠ 0#16 ∨ ¬ legal (w.extractLsb' 8 8)) →
    execWord w s = .next { s with err := .illegal }

/-- An outcome with its next state changed; a fault or a refusal stays. -/
def onNext (f : State → State) : Result → Result
  | .next t => .next (f t)
  | .fault e => .fault e
  | .refused e => .refused e

/-- The accesses the block accepts: a register, 32 bits wide and aligned, or a byte of the buffer window (rules R61, R62, R63). -/
def Accepts (s : State) (width : Width) (off : Offset) : Prop :=
  (width = .w32 ∧ off.toNat < 0x30 ∧ off.toNat % 4 = 0) ∨
    (width = .w8 ∧ 0x10000 ≤ off.toNat ∧ off.toNat < 0x10000 + s.bufSize.val)

/-- The used bits of a register that is not CMD (rule R21). -/
def usedBits : Reg → Word
  | .cfg => 0x7
  | .crc | .len | .src | .dst | .cnt | .aux | .rlen => 0xFFFF
  | .cmd => 0
  | .status => 0x00FF071F
  | .dataLo | .dataHi => 0xFFFFFFFF

/-- The registers a host write changes (rule R21, access RW). -/
def writable : Reg → Bool
  | .cfg | .crc | .len | .dataLo | .dataHi | .src | .dst | .cnt | .aux => true
  | .cmd | .status | .rlen => false

/-- The invariant of the block. BUF is in its canonical form and lists positions of BUF only (rules R39, R66); RLEN is the length of a range that fitted in BUF (rules R38, R78); EXC is 0 unless the last frame check gave EXC (rule R32). -/
def State.wf (s : State) : Bool :=
  s.buf.wf && s.buf.within s.bufSize.val && decide (s.rlen.toNat ≤ s.bufSize.val) &&
    (s.fres == .exc || s.exc == 0#8)

end Sys2Proof.Machine
end

