-- ==== Sys2Proof/Certificates/Slice0/Obligations.lean ====
section
/-! DEFINITION. The statements about the model, each with the rule of the spec it formalises. -/

open Sys2Proof Sys2Proof.Machine

/- ==== Encoding and the command port ==== -/

/-- Rules R72, R74: a step performs the host's next access, whatever it is, to completion. Rules R27, R40, R99: a 32-bit write to CMD, offset 0x0C, whose word decodes to a command, is one step, and the step is that command on the state with the access taken from the host's sequence; the write is answered "accepted". (The sequence and the answers are the model's fields, log entries 2 and 3; that a command error is no bus error is log entry 12.) -/
def Obligations.StepRunsTheDecodedCommand : Prop :=
  (∀ (s : State) (a : HostAccess) (rest : List HostInput), s.inputs = .access a :: rest →
    step s = access a { s with inputs := rest }) ∧
  ∀ (s : State) (w : Word) (i : Instr) (rest : List HostInput),
    s.inputs = .access (.write 0x0C#17 (.b32 w)) :: rest → decode w = .ok i →
    step s =
      match exec i { s with inputs := rest } with
      | .next t => .next { t with replies := .accepted :: t.replies }
      | .fault f => .fault f
      | .refused r => .refused r

/-- Rule R97 ("Its encoding is `match | (imm << 8)`"): a word decodes to a command exactly when it is that command's encoding, so decode and encode are inverse both ways. -/
def Obligations.DecodeInvertsEncode : Prop :=
  ∀ (w : Word) (i : Instr), decode w = .ok i ↔ encode i = w

/-- Words written out from the programs and vectors of the spec decode to the commands they stand for (95_test_vectors.md V-CRC-2, V-ERR-1, P1 to P7). -/
def Obligations.SpecWordsDecodeToTheirCommands : Prop :=
  decode 0x00000001 = .ok .crcinit ∧ decode 0x00006402 = .ok (.crcbyte 0x64) ∧
  decode 0x00000004 = .ok .crcapp ∧ decode 0x00000306 = .ok (.frmchk 0x03) ∧
  decode 0x0000FF06 = .ok (.frmchk 0xFF) ∧ decode 0x00000010 = .ok .dec16 ∧
  decode 0x00000015 = .ok .enc32 ∧ decode 0x00000019 = .ok .perm32 ∧
  decode 0x00000120 = .ok (.strenc true) ∧ decode 0x00000021 = .ok (.strdec false) ∧
  decode 0x00000030 = .ok .bpack ∧ decode 0x00000031 = .ok .bunpack

/-- Rules R92, R95, R96: "a model maps every 32-bit word either to exactly one row of rule R95 or to ILLEGAL". A word with RSV 0, an assigned OP and an IMM8 its form admits is a command and matches that command's row and no other; every other word matches no row, and its execution sets ERR to ILLEGAL and changes nothing else. -/
def Obligations.EveryWordIsOneRowOrIllegal : Prop :=
  ∀ w : Word,
    let op := (w.extractLsb' 0 8).toNat
    let imm := w.extractLsb' 8 8
    let legal := w.extractLsb' 16 16 = 0#16 ∧
      op ∈ [0x01, 0x02, 0x03, 0x04, 0x05, 0x06, 0x10, 0x11, 0x12, 0x14, 0x15, 0x16, 0x18, 0x19,
        0x1A, 0x20, 0x21, 0x30, 0x31] ∧
      (op ∈ [0x20, 0x21] → imm.extractLsb' 1 7 = 0#7) ∧
      (op ∉ [0x02, 0x06, 0x20, 0x21] → imm = 0#8)
    (legal → ∃ i, decode w = .ok i ∧ i.row ∈ opcodeTable ∧ w &&& i.row.mask = i.row.pattern ∧
      ∀ r ∈ opcodeTable, w &&& r.mask = r.pattern → r = i.row) ∧
    (¬ legal → (∀ r ∈ opcodeTable, w &&& r.mask ≠ r.pattern) ∧
      ∀ s, execWord w s = .next { s with err := .illegal })

/- ==== Errors, completion, faults, frames: rules over all commands ==== -/

/-- Rules R211, R212, R213, R214: a command reports exactly the error the checks give, RANGE before ARG, whatever the buffer bytes are; a command that reports one changes STATUS.ERR and nothing else; a command that completes sets it to NONE. `checkedRanges` and `argumentsFit` are the table of R211. -/
def Obligations.CommandErrorsArePreciseAndComplete : Prop :=
  ∀ (i : Instr) (s : State),
    (commandError i s ≠ .none → exec i s = .next { s with err := commandError i s }) ∧
    ∀ t, exec i s = .next t → t.err = commandError i s

/-- Rules R213, R243 (a): a command none of whose checks fails, and every byte of whose source range the host has written, completes with ERR = NONE; this says of each of the nineteen commands when it runs. -/
def Obligations.ReadyCommandsComplete : Prop :=
  ∀ (i : Instr) (s : State), commandError i s = .none → Ready i s →
    ∃ t, exec i s = .next t ∧ t.err = .none

/-- Rule R67: "A model treats a `BufRead` of an unwritten byte, by the host or by a command, as a fault of the model". A command whose checks pass faults exactly on the lowest unwritten position of its source range (log entry 5), a command faults in no other way and is never refused, and a host read of the window faults exactly on an unwritten byte. -/
def Obligations.ReadingAnUnwrittenByteFaults : Prop :=
  (∀ (i : Instr) (s : State) (p : Nat),
    (commandError i s = .none ∧ FirstUnwritten s.buf (readRange i s).1 (readRange i s).2 p) ↔
      exec i s = .fault (.unwritten p)) ∧
  (∀ (i : Instr) (s : State) (r : Refusal), exec i s ≠ .refused r) ∧
  ∀ (s : State) (n : Nat), n < s.bufSize.val →
    (s.buf.read n = none ↔
      access (.read .w8 (BitVec.ofNat 17 (0x10000 + n))) s = .fault (.unwritten n))

/-- Rules R25 to R38, each register's list of writers: no command writes CFG, SRC, DST, CNT or AUX; LEN only CRCAPP; CRC only the CRC family and FRMCHK; DATA only the DEC commands; RLEN only PERM, STRENC, STRDEC, BPACK, BUNPACK; CRC_OK only CRCVER and FRMCHK; FRES and EXC only FRMCHK. -/
def Obligations.CommandsWriteOnlyTheirRegisters : Prop :=
  ∀ (i : Instr) (s t : State), exec i s = .next t →
    (t.bufSize = s.bufSize ∧ t.cfg = s.cfg ∧ t.src = s.src ∧ t.dst = s.dst ∧ t.cnt = s.cnt ∧
      t.aux = s.aux ∧ t.inputs = s.inputs ∧ t.replies = s.replies) ∧
    (i ≠ .crcapp → t.len = s.len) ∧
    (i ∉ [.crcinit, .crcbuf, .crcapp, .crcver] → (∀ e, i ≠ .crcbyte e) → (∀ e, i ≠ .frmchk e) →
      t.crc = s.crc) ∧
    (i ∉ [.dec16, .dec32, .dec64] → t.data = s.data) ∧
    (i ∉ [.perm16, .perm32, .perm64, .bpack, .bunpack] → (∀ f, i ≠ .strenc f) →
      (∀ f, i ≠ .strdec f) → t.rlen = s.rlen) ∧
    (i ≠ .crcver → (∀ e, i ≠ .frmchk e) → t.crcOk = s.crcOk) ∧
    ((∀ e, i ≠ .frmchk e) → t.fres = s.fres ∧ t.exc = s.exc)

/-- The frame of BUF over all commands: a command that completes changes no byte outside the range it writes, whose position and length `writeRange` computes from DST (CRCAPP: LEN) as the command's rule does, and every byte of that range is then written; a command that reports an error changes no byte. -/
def Obligations.CommandsWriteOnlyTheirRange : Prop :=
  ∀ (i : Instr) (s t : State), exec i s = .next t →
    (t.err = .none → SameOutside s.buf t.buf (writeRange i s).1 (writeRange i s).2 ∧
      Written t.buf (writeRange i s).1 (writeRange i s).2) ∧
    (t.err ≠ .none → SameBytes s.buf t.buf)

/-- The invariant of the block: in every state that has it, a step gives a state that has it. BUF stays in its canonical form and inside BUF_SIZE (rules R39, R66, R78), RLEN stays a length that fits in BUF (R38), and EXC stays 0 unless the last frame check gave EXC (R32). -/
def Obligations.EveryStepKeepsTheInvariant : Prop :=
  ∀ s t : State, s.wf = true → step s = .next t → t.wf = true

/-- The state after reset has the invariant, for every BUF_SIZE of rule R6; `State.reset` is that state at the default size (log entry 1). -/
def Obligations.ResetHasTheInvariant : Prop :=
  (∀ size : BufSize, (State.resetOf size).wf = true) ∧ State.reset.wf = true

/-- Rule R6: BUF_SIZE is a parameter; no step changes it (log entry 1: it is a field of the model's state). -/
def Obligations.BufSizeNeverChanges : Prop :=
  ∀ s t : State, step s = .next t → t.bufSize = s.bufSize

/-- Rule R79: a buffer-to-buffer command stores what the bytes of its source range were before it, however the ranges overlap: two states whose source ranges hold the same bytes, with the same counts and flags, get the same bytes at their DST and the same RLEN, wherever SRC and DST lie in each. -/
def Obligations.BufferCommandsActOnASnapshot : Prop :=
  ∀ i ∈ [Instr.perm16, .perm32, .perm64, .strenc false, .strenc true, .strdec false,
      .strdec true, .bpack, .bunpack],
    ∀ (s s' t t' : State) (bytes : List Byte),
      s'.cfg = s.cfg → s'.cnt = s.cnt → s'.aux = s.aux →
      bytes.length = (readRange i s).2 →
      Holds s.buf (readRange i s).1 bytes → Holds s'.buf (readRange i s').1 bytes →
      exec i s = .next t → exec i s' = .next t' → t.err = .none → t'.err = .none →
      t'.rlen = t.rlen ∧
      ∀ k, k < (writeRange i s).2 →
        t'.buf.read (s'.dst.toNat + k) = t.buf.read (s.dst.toNat + k)

/-- Rules R22, R23, R24, R145, R170: which flags of CFG a command depends on. The scalar and array commands depend on WS and MWS only, the 16-bit ones on WS only, the string commands on SWS only, and every other command on no flag: with CFG changed elsewhere, the command does the same to everything but CFG. -/
def Obligations.CommandsReadOnlyTheirFlags : Prop :=
  ∀ (s : State) (c : BitVec 3),
    (∀ i ∈ [Instr.dec16, .enc16, .perm16], c.getLsbD 0 = s.cfg.getLsbD 0 →
      exec i { s with cfg := c } = onNext (fun t => { t with cfg := c }) (exec i s)) ∧
    (∀ i ∈ [Instr.dec32, .dec64, .enc32, .enc64, .perm32, .perm64],
      c.getLsbD 0 = s.cfg.getLsbD 0 → c.getLsbD 1 = s.cfg.getLsbD 1 →
      exec i { s with cfg := c } = onNext (fun t => { t with cfg := c }) (exec i s)) ∧
    (∀ i ∈ [Instr.strenc false, .strenc true, .strdec false, .strdec true],
      c.getLsbD 2 = s.cfg.getLsbD 2 →
      exec i { s with cfg := c } = onNext (fun t => { t with cfg := c }) (exec i s)) ∧
    (∀ i ∈ [Instr.crcinit, .crcbuf, .crcapp, .crcver, .bpack, .bunpack],
      exec i { s with cfg := c } = onNext (fun t => { t with cfg := c }) (exec i s)) ∧
    ∀ e : Byte,
      exec (.crcbyte e) { s with cfg := c } =
        onNext (fun t => { t with cfg := c }) (exec (.crcbyte e) s) ∧
      exec (.frmchk e) { s with cfg := c } =
        onNext (fun t => { t with cfg := c }) (exec (.frmchk e) s)

/- ==== The CRC family ==== -/

/-- Rule R111: the fold over a byte sequence from an initial accumulator; `crc16` starts from 0xFFFF. The last clause, `crc16([]) = 0xFFFF`, is one the rule marks as the spec's own inference. -/
def Obligations.CrcIsTheFoldOfItsStep : Prop :=
  ∀ (init : Half) (bytes : List Byte) (b : Byte),
    crc [] init = init ∧ crc (bytes ++ [b]) init = crcStep (crc bytes init) b ∧
    crc16 bytes = crc bytes 0xFFFF#16 ∧ crc16 [] = 0xFFFF#16

/-- Rule R112, in a clause the spec marks as its own inference ("Its check value over the ASCII bytes of \"123456789\" is 0x4B37"), and the first rows of V-CRC-1. -/
def Obligations.CrcCheckValues : Prop :=
  crc16 [0x31, 0x32, 0x33, 0x34, 0x35, 0x36, 0x37, 0x38, 0x39] = 0x4B37#16 ∧
  crc16 [0x01, 0x03, 0x00, 0x64, 0x00, 0x01] = 0xD5C5#16 ∧
  crc16 [0x01, 0x83, 0x02] = 0xF1C0#16 ∧ crc16 [0x00, 0x00] = 0xB001#16

/-- Rule R110, bit by bit: one byte of the computation is eight shifts of the accumulator after the byte is XORed into its low byte; a shift brings 0 into bit 15, moves each bit down, and XORs 0xA001 in exactly when the bit shifted out is 1. -/
def Obligations.CrcStepShiftsAndXorsThePolynomial : Prop :=
  (∀ (c : Half) (k : Nat), k < 16 →
    (crcShift c).getLsbD k =
      ((decide (k < 15) && c.getLsbD (k + 1)) ^^ (c.getLsbD 0 && (0xA001#16).getLsbD k))) ∧
  ∀ (c : Half) (b : Byte),
    crcStep c b = crcShift (crcShift (crcShift (crcShift (crcShift (crcShift (crcShift (crcShift
      (c ^^^ b.setWidth 16))))))))

/-- Rules R113, R114: CRCINIT sets CRC to 0xFFFF, CRCBYTE adds its operand by one crc_step, both set ERR to NONE and change nothing else; the encodings, and ILLEGAL for RSV or (CRCINIT) IMM8 not 0. -/
def Obligations.CrcinitAndCrcbyte : Prop :=
  Selects 0x00000001 .crcinit ∧ IllegalUnless 0x01 (· = 0#8) ∧
  (∀ b : Byte, Selects (0x0000#16 ++ b ++ 0x02#8) (.crcbyte b)) ∧
  IllegalUnless 0x02 (fun _ => True) ∧
  ∀ s : State,
    exec .crcinit s = .next { s with crc := 0xFFFF, err := .none } ∧
    ∀ b : Byte, exec (.crcbyte b) s = .next { s with crc := crcStep s.crc b, err := .none }

/-- Rule R115: CRCBUF. -/
def Obligations.CrcbufFoldsARange : Prop :=
  Selects 0x00000003 .crcbuf ∧ IllegalUnless 0x03 (· = 0#8) ∧
  ∀ s : State,
    (s.bufSize.val < s.src.toNat + s.cnt.toNat →
      exec .crcbuf s = .next { s with err := .range }) ∧
    ∀ bytes : List Byte, s.src.toNat + s.cnt.toNat ≤ s.bufSize.val →
      bytes.length = s.cnt.toNat → Holds s.buf s.src.toNat bytes →
      exec .crcbuf s = .next { s with crc := crc bytes s.crc, err := .none }

/-- Rule R115, a corner case the spec marks as its own inference: "a range split into consecutive pieces gives the same CRC as one CRCBUF over the whole". -/
def Obligations.CrcbufOverASplitRange : Prop :=
  ∀ (s t : State) (m n : Half), s.cnt.toNat = m.toNat + n.toNat →
    exec .crcbuf s = .next t → t.err = .none →
    ∃ u v, exec .crcbuf { s with cnt := m } = .next u ∧
      exec .crcbuf { u with src := BitVec.ofNat 16 (s.src.toNat + m.toNat), cnt := n } = .next v ∧
      u.err = .none ∧ v.err = .none ∧ v.crc = t.crc

/-- Rule R116: CRCAPP appends CRC[7:0] and then CRC[15:8] of crc16 over BUF[0..LEN), and LEN grows by 2; RANGE when LEN + 2 > BUF_SIZE. -/
def Obligations.CrcappAppendsTheCrc : Prop :=
  Selects 0x00000004 .crcapp ∧ IllegalUnless 0x04 (· = 0#8) ∧
  ∀ s : State,
    (s.bufSize.val < s.len.toNat + 2 → exec .crcapp s = .next { s with err := .range }) ∧
    ∀ frame : List Byte, s.len.toNat + 2 ≤ s.bufSize.val → frame.length = s.len.toNat →
      Holds s.buf 0 frame →
      ∃ t, exec .crcapp s = .next t ∧
        t = { s with buf := t.buf, len := t.len, crc := crc16 frame, err := .none } ∧
        t.len.toNat = s.len.toNat + 2 ∧
        Stores s.buf t.buf s.len.toNat
          [(crc16 frame).extractLsb' 0 8, (crc16 frame).extractLsb' 8 8]

/-- Rule R117: CRCVER sets CRC_OK to whether the last two bytes are the CRC of the bytes before them, low byte first, and CRC to that CRC; a frame of fewer than 2 bytes gives CRC_OK = 0 and leaves CRC; RANGE when LEN > BUF_SIZE. -/
def Obligations.CrcverComparesTheTrailer : Prop :=
  Selects 0x00000005 .crcver ∧ IllegalUnless 0x05 (· = 0#8) ∧
  ∀ s : State,
    (s.bufSize.val < s.len.toNat → exec .crcver s = .next { s with err := .range }) ∧
    (s.len.toNat < 2 → exec .crcver s = .next { s with crcOk := false, err := .none }) ∧
    ∀ (body : List Byte) (lo hi : Byte), s.len.toNat ≤ s.bufSize.val →
      s.len.toNat = body.length + 2 → Holds s.buf 0 (body ++ [lo, hi]) →
      exec .crcver s = .next { s with
        crcOk := decide (lo = (crc16 body).extractLsb' 0 8 ∧ hi = (crc16 body).extractLsb' 8 8)
        crc := crc16 body
        err := .none }

/-- The source's law of the CRC, in a rule the spec marks as its own inference (40_crc.md section 3, R118): for every frame that leaves room for two bytes, CRCAPP followed by CRCVER completes with CRC_OK = 1. -/
def Obligations.AppendedCrcVerifies : Prop :=
  ∀ (s t : State), exec .crcapp s = .next t → t.err = .none →
    ∃ u, exec .crcver t = .next u ∧ u.err = .none ∧ u.crcOk = true ∧ u.buf = t.buf

/-- Residue, which the spec gives from general knowledge (40_crc.md section 3, R119): the CRC over a sequence with its own CRC appended is 0, and a frame of at least 2 bytes passes CRCVER exactly when the CRC over the whole frame is 0. -/
def Obligations.CrcResidueIsZero : Prop :=
  (∀ bytes : List Byte,
    crc16 (bytes ++ [(crc16 bytes).extractLsb' 0 8, (crc16 bytes).extractLsb' 8 8]) = 0#16) ∧
  ∀ (s : State) (frame : List Byte), 2 ≤ s.len.toNat → s.len.toNat ≤ s.bufSize.val →
    frame.length = s.len.toNat → Holds s.buf 0 frame →
    ∃ t, exec .crcver s = .next t ∧ t.err = .none ∧ (t.crcOk = true ↔ crc16 frame = 0#16)

/-- The corner case of R116 that rests on the residue: CRCAPP issued twice appends a second CRC, which is `00 00`. -/
def Obligations.SecondCrcappAppendsZeros : Prop :=
  ∀ s t u : State, exec .crcapp s = .next t → t.err = .none → exec .crcapp t = .next u →
    u.err = .none → Stores t.buf u.buf t.len.toNat [0#8, 0#8] ∧ u.crc = 0#16

/-- Error detection, which the spec gives from general knowledge (40_crc.md section 3, R120): every single-bit change of a frame that passes CRCVER makes CRCVER give CRC_OK = 0; and some multi-bit changes pass. -/
def Obligations.SingleBitFlipsAreDetected : Prop :=
  (∀ (s t : State) (p j : Nat) (b : Byte), exec .crcver s = .next t → t.err = .none →
    t.crcOk = true → p < s.len.toNat → j < 8 → s.buf.read p = some b →
    ∃ u, exec .crcver { s with buf := s.buf.write p (b ^^^ (1#8 <<< j)) } = .next u ∧
      u.err = .none ∧ u.crcOk = false) ∧
  ∃ body body' : List Byte, ∃ lo hi lo' hi' : Byte,
    body.length = body'.length ∧ body ++ [lo, hi] ≠ body' ++ [lo', hi'] ∧
    trailerMatches (crc16 body) lo hi = true ∧ trailerMatches (crc16 body') lo' hi' = true

/- ==== The frame check ==== -/

/-- Rules R191, R195: FRMCHK e. Short first, then the CRC, then the exception test by equality with e | 0x80; LEN, BUF and every other register unchanged; RANGE when LEN > BUF_SIZE; every IMM8 legal. -/
def Obligations.FrmchkChecksAFrame : Prop :=
  (∀ e : Byte, Selects (0x0000#16 ++ e ++ 0x06#8) (.frmchk e)) ∧
  IllegalUnless 0x06 (fun _ => True) ∧
  ∀ (s : State) (e : Byte),
    (s.bufSize.val < s.len.toNat → exec (.frmchk e) s = .next { s with err := .range }) ∧
    (s.len.toNat < 5 → exec (.frmchk e) s =
      .next { s with fres := .short, crcOk := false, exc := 0, err := .none }) ∧
    ∀ (station fc code : Byte) (more : List Byte) (lo hi : Byte),
      let body := station :: fc :: code :: more
      s.len.toNat ≤ s.bufSize.val → s.len.toNat = body.length + 2 →
      Holds s.buf 0 (body ++ [lo, hi]) →
      (¬ (lo = (crc16 body).extractLsb' 0 8 ∧ hi = (crc16 body).extractLsb' 8 8) →
        exec (.frmchk e) s = .next { s with
          fres := .crc, crcOk := false, exc := 0, crc := crc16 body, err := .none }) ∧
      (lo = (crc16 body).extractLsb' 0 8 → hi = (crc16 body).extractLsb' 8 8 →
        exec (.frmchk e) s = .next { s with
          fres := if fc = e ||| 0x80#8 then .exc else .ok
          exc := if fc = e ||| 0x80#8 then code else 0
          crcOk := true, crc := crc16 body, err := .none })

/-- The source's scenario 6 (43_frame_check.md section 2, R196 (b), from general knowledge): any change of one byte of a frame of 5 or more bytes that passed the CRC gives FRES = CRC, CRC_OK = 0 and EXC = 0. -/
def Obligations.SingleByteChangesFailTheFrameCheck : Prop :=
  ∀ (s t : State) (e b b' : Byte) (p : Nat), exec (.frmchk e) s = .next t → t.err = .none →
    t.crcOk = true → p < s.len.toNat → s.buf.read p = some b → b' ≠ b →
    ∃ u, exec (.frmchk e) { s with buf := s.buf.write p b' } = .next u ∧
      u.err = .none ∧ u.fres = .crc ∧ u.crcOk = false ∧ u.exc = 0#8

/-- Rule R192: the nine codes with a meaning and no other; FRMCHK records any of them unchanged (FrmchkChecksAFrame). -/
def Obligations.ExceptionCodesWithAMeaning : Prop :=
  exceptionMeaning 0x01 = some .illegalFunction ∧ exceptionMeaning 0x02 = some .illegalDataAddress ∧
  exceptionMeaning 0x03 = some .illegalDataValue ∧
  exceptionMeaning 0x04 = some .serverDeviceFailure ∧ exceptionMeaning 0x05 = some .acknowledge ∧
  exceptionMeaning 0x06 = some .serverDeviceBusy ∧
  exceptionMeaning 0x08 = some .memoryParityError ∧
  exceptionMeaning 0x0A = some .gatewayPathUnavailable ∧
  exceptionMeaning 0x0B = some .gatewayTargetFailedToRespond ∧
  ∀ code : Byte, code ∉ [0x01#8, 0x02#8, 0x03#8, 0x04#8, 0x05#8, 0x06#8, 0x08#8, 0x0A#8, 0x0B#8] →
    exceptionMeaning code = none

/- ==== Scalars and arrays ==== -/

/-- Rule R141, its pseudocode: the word swap gives t, the multi-word swap gives u from t. -/
def Obligations.PermSwapsBytesThenWords : Prop :=
  ∀ n ∈ [1, 2, 4], ∀ (s : List Byte) (ws mws : Bool), s.length = 2 * n →
    ∃ t : List Byte, t.length = 2 * n ∧ (perm n s ws mws).length = 2 * n ∧
      (ws = true → ∀ k < n, t[2 * k]? = s[2 * k + 1]? ∧ t[2 * k + 1]? = s[2 * k]?) ∧
      (ws = false → t = s) ∧
      (mws = true ∧ n ∈ [2, 4] → ∀ k < n,
        (perm n s ws mws)[2 * k]? = t[2 * (n - 1 - k)]? ∧
        (perm n s ws mws)[2 * k + 1]? = t[2 * (n - 1 - k) + 1]?) ∧
      (¬ (mws = true ∧ n ∈ [2, 4]) → perm n s ws mws = t)

/-- The properties of perm_N the spec marks as its own inferences (41_transform.md section 1, R141 and R144): the byte at each place, perm_N its own inverse, and the two steps commuting. -/
def Obligations.PermIsItsOwnInverse : Prop :=
  ∀ n ∈ [1, 2, 4], ∀ (s : List Byte) (ws mws : Bool), s.length = 2 * n →
    perm n (perm n s ws mws) ws mws = s ∧
    perm n (perm n s false mws) ws false = perm n s ws mws ∧
    ∀ i < 2 * n, (perm n s ws mws)[i]? =
      s[2 * (if mws = true ∧ 2 ≤ n then n - 1 - i / 2 else i / 2) +
        (if ws then 1 - i % 2 else i % 2)]?

/-- Rules R142, R143: bits [8(2N-1-i)+7 : 8(2N-1-i)] of decode_N are byte i of perm_N; encode_N is the unique sequence of 2N bytes that decodes to v, with its own bytes the permuted big-endian bytes of v. That last clause, encode_N(v) = perm_N(be_N(v)), is one R143 marks as the spec's own inference (from R142 and R144). -/
def Obligations.DecodeAndEncodeScalars : Prop :=
  ∀ n ∈ [1, 2, 4], ∀ (ws mws : Bool),
    (∀ (s : List Byte), s.length = 2 * n → ∀ i < 2 * n,
      (perm n s ws mws)[i]? =
        some ((decodeScalar n s ws mws).extractLsb' (8 * (2 * n - 1 - i)) 8)) ∧
    ∀ (v : BitVec (16 * n)),
      (∃ be : List Byte, be.length = 2 * n ∧
        (∀ i < 2 * n, be[i]? = some (v.extractLsb' (8 * (2 * n - 1 - i)) 8)) ∧
        encodeScalar n v ws mws = perm n be ws mws) ∧
      ∀ s : List Byte, s.length = 2 * n →
        (decodeScalar n s ws mws = v ↔ s = encodeScalar n v ws mws)

/-- The source's law of the scalars at the commands, in a rule the spec marks as its own inference (41_transform.md section 5, R156): ENCn at position p, then, with CFG unchanged, DECn at SRC = p, restores DATA[16N-1:0] zero-extended. -/
def Obligations.EncThenDecRestoresData : Prop :=
  ∀ x ∈ [(Instr.enc16, Instr.dec16, 16), (.enc32, .dec32, 32), (.enc64, .dec64, 64)],
    ∀ (s t : State), exec x.1 s = .next t → t.err = .none →
      ∃ u, exec x.2.1 { t with src := s.dst } = .next u ∧ u.err = .none ∧
        u.data = (s.data.setWidth x.2.2).setWidth 64 ∧ u.buf = t.buf

/-- Rules R147, R148, R149: DEC16, DEC32, DEC64 put the zero-extended pattern in DATA; RANGE when the scalar passes the end of BUF; an unwritten byte is a fault. -/
def Obligations.DecReadsAScalarIntoData : Prop :=
  ∀ x ∈ [(Instr.dec16, 1, 0x10#8), (.dec32, 2, 0x11#8), (.dec64, 4, 0x12#8)],
    Selects (0#24 ++ x.2.2) x.1 ∧ IllegalUnless x.2.2 (· = 0#8) ∧
    ∀ s : State,
      (s.bufSize.val < s.src.toNat + 2 * x.2.1 → exec x.1 s = .next { s with err := .range }) ∧
      (s.src.toNat + 2 * x.2.1 ≤ s.bufSize.val →
        (¬ Written s.buf s.src.toNat (2 * x.2.1) → ∃ f, exec x.1 s = .fault f) ∧
        ∀ bytes : List Byte, bytes.length = 2 * x.2.1 → Holds s.buf s.src.toNat bytes →
          exec x.1 s = .next { s with
            data := (decodeScalar x.2.1 bytes (s.cfg.getLsbD 0) (s.cfg.getLsbD 1)).setWidth 64
            err := .none })

/-- Rules R150, R151, R152: ENC16, ENC32, ENC64 store the encoded DATA[16N-1:0] at DST and change nothing else but ERR; RANGE when the scalar passes the end of BUF. -/
def Obligations.EncStoresDataAsAScalar : Prop :=
  ∀ x ∈ [(Instr.enc16, 1, 0x14#8), (.enc32, 2, 0x15#8), (.enc64, 4, 0x16#8)],
    Selects (0#24 ++ x.2.2) x.1 ∧ IllegalUnless x.2.2 (· = 0#8) ∧
    ∀ s : State,
      (s.bufSize.val < s.dst.toNat + 2 * x.2.1 → exec x.1 s = .next { s with err := .range }) ∧
      (s.dst.toNat + 2 * x.2.1 ≤ s.bufSize.val →
        ∃ t, exec x.1 s = .next t ∧ t = { s with buf := t.buf, err := .none } ∧
          Stores s.buf t.buf s.dst.toNat (encodeScalar x.2.1 (s.data.setWidth (16 * x.2.1))
            (s.cfg.getLsbD 0) (s.cfg.getLsbD 1)) ∧
          (encodeScalar x.2.1 (s.data.setWidth (16 * x.2.1))
            (s.cfg.getLsbD 0) (s.cfg.getLsbD 1)).length = 2 * x.2.1)

/-- Rule R157: an array of m elements of 2N bytes, each permuted on its own, element e at offset 2N·e; the same permutation takes it back. -/
def Obligations.ArraysPermuteElementByElement : Prop :=
  ∀ n ∈ [1, 2, 4], ∀ (m : Nat) (bytes : List Byte) (ws mws : Bool),
    bytes.length = 2 * n * m →
    (permArray n m bytes ws mws).length = 2 * n * m ∧
    (∀ e < m, ((permArray n m bytes ws mws).drop (2 * n * e)).take (2 * n) =
      perm n ((bytes.drop (2 * n * e)).take (2 * n)) ws mws) ∧
    permArray n m (permArray n m bytes ws mws) ws mws = bytes

/-- Rules R153, R154, R155: PERM16, PERM32, PERM64 store the permuted array at DST and its length in RLEN; RANGE, source first, when a range passes the end of BUF, without wrap. -/
def Obligations.PermStoresThePermutedArray : Prop :=
  ∀ x ∈ [(Instr.perm16, 1, 0x18#8), (.perm32, 2, 0x19#8), (.perm64, 4, 0x1A#8)],
    Selects (0#24 ++ x.2.2) x.1 ∧ IllegalUnless x.2.2 (· = 0#8) ∧
    ∀ s : State,
      (s.bufSize.val < s.src.toNat + 2 * x.2.1 * s.cnt.toNat ∨
        s.bufSize.val < s.dst.toNat + 2 * x.2.1 * s.cnt.toNat →
        exec x.1 s = .next { s with err := .range }) ∧
      ∀ bytes : List Byte, s.src.toNat + 2 * x.2.1 * s.cnt.toNat ≤ s.bufSize.val →
        s.dst.toNat + 2 * x.2.1 * s.cnt.toNat ≤ s.bufSize.val →
        bytes.length = 2 * x.2.1 * s.cnt.toNat → Holds s.buf s.src.toNat bytes →
        ∃ t, exec x.1 s = .next t ∧
          t = { s with buf := t.buf, rlen := t.rlen, err := .none } ∧
          t.rlen.toNat = 2 * x.2.1 * s.cnt.toNat ∧
          Stores s.buf t.buf s.dst.toNat
            (permArray x.2.1 s.cnt.toNat bytes (s.cfg.getLsbD 0) (s.cfg.getLsbD 1)) ∧
          (permArray x.2.1 s.cnt.toNat bytes (s.cfg.getLsbD 0) (s.cfg.getLsbD 1)).length =
            2 * x.2.1 * s.cnt.toNat

/-- Rule R146 with the two's complement reading the spec takes from general knowledge (G6; log entry 10): the views of DATA[16N-1:0] as uintW and intW, and the signed 64-bit value that reads as the same number. -/
def Obligations.TypedViewsOfData : Prop :=
  ∀ n ∈ [1, 2, 4], ∀ s : State,
    s.uintView n = s.data.toNat % 2 ^ (16 * n) ∧
    s.intView n = (if 2 * s.uintView n < 2 ^ (16 * n) then (s.uintView n : Int)
      else (s.uintView n : Int) - 2 ^ (16 * n)) ∧
    (s.signed64 n).toInt = s.intView n

/- ==== Strings and booleans ==== -/

/-- Rules R171, R173: the bytes of str_encode and str_decode. The encoded string has the even length L + (L mod 2); before the swap its byte j is source byte j for j below both L and the source length, else 0; with sws, byte i is byte i + 1 for even i and byte i - 1 for odd i. The decoded string of an even source has length L and takes the source bytes in the same swapped places. -/
def Obligations.StringBytes : Prop :=
  ∀ (s : List Byte) (L : Nat) (sws : Bool),
    (strEncode s L sws).length = L + L % 2 ∧
    (∀ i < L + L % 2,
      let j := if sws then (if i % 2 = 0 then i + 1 else i - 1) else i
      (strEncode s L sws)[i]? = some (if j < L then s.getD j 0#8 else 0#8)) ∧
    (s.length % 2 = 0 → L ≤ s.length →
      (strDecode s L sws).length = L ∧
      ∀ i < L,
        let j := if sws then (if i % 2 = 0 then i + 1 else i - 1) else i
        (strDecode s L sws)[i]? = s[j]?)

/-- The source's law of the strings, in a rule the spec marks as its own inference (42_string_bool.md section 1, R175): with L at least the source length, decoding to the source length restores the bytes; with L below it, the first L bytes. -/
def Obligations.StringRoundTrip : Prop :=
  ∀ (s : List Byte) (L : Nat) (sws : Bool),
    (s.length ≤ L → strDecode (strEncode s L sws) s.length sws = s) ∧
    (L < s.length → strDecode (strEncode s L sws) L sws = s.take L)

/-- The same law at the commands (42_string_bool.md section 1, R175): STRENC, or STRENC.F with AUX at least CNT, then STRDEC.F with SRC the encode's DST, CNT its RLEN and AUX the source length, puts the source bytes at the decode's DST, wherever that is in BUF. -/
def Obligations.StrencThenStrdecRestoresTheString : Prop :=
  ∀ (s t : State) (fixed : Bool) (bytes : List Byte) (d : Half),
    (fixed = true → s.cnt.toNat ≤ s.aux.toNat) →
    bytes.length = s.cnt.toNat → Holds s.buf s.src.toNat bytes →
    exec (.strenc fixed) s = .next t → t.err = .none → d.toNat + s.cnt.toNat ≤ s.bufSize.val →
    ∃ u, exec (.strdec true) { t with src := s.dst, cnt := t.rlen, aux := s.cnt, dst := d } =
        .next u ∧ u.err = .none ∧ Holds u.buf d.toNat bytes ∧ u.rlen = s.cnt

/-- Rule R172: STRENC and STRENC.F. -/
def Obligations.StrencEncodesAString : Prop :=
  Selects 0x00000020 (.strenc false) ∧ Selects 0x00000120 (.strenc true) ∧
  IllegalUnless 0x20 (fun imm => imm = 0#8 ∨ imm = 1#8) ∧
  ∀ (s : State) (fixed : Bool),
    let L := if fixed then s.aux.toNat else s.cnt.toNat
    (s.bufSize.val < s.src.toNat + s.cnt.toNat ∨ s.bufSize.val < s.dst.toNat + (L + L % 2) →
      exec (.strenc fixed) s = .next { s with err := .range }) ∧
    ∀ bytes : List Byte, s.src.toNat + s.cnt.toNat ≤ s.bufSize.val →
      s.dst.toNat + (L + L % 2) ≤ s.bufSize.val → bytes.length = s.cnt.toNat →
      Holds s.buf s.src.toNat bytes →
      ∃ t, exec (.strenc fixed) s = .next t ∧
        t = { s with buf := t.buf, rlen := t.rlen, err := .none } ∧
        t.rlen.toNat = L + L % 2 ∧
        Stores s.buf t.buf s.dst.toNat (strEncode bytes L (s.cfg.getLsbD 2))

/-- Rule R174: STRDEC and STRDEC.F; RANGE for either range, then ARG for an odd CNT or a result longer than CNT. -/
def Obligations.StrdecDecodesAString : Prop :=
  Selects 0x00000021 (.strdec false) ∧ Selects 0x00000121 (.strdec true) ∧
  IllegalUnless 0x21 (fun imm => imm = 0#8 ∨ imm = 1#8) ∧
  ∀ (s : State) (fixed : Bool),
    let L := if fixed then s.aux.toNat else s.cnt.toNat
    (s.bufSize.val < s.src.toNat + s.cnt.toNat ∨ s.bufSize.val < s.dst.toNat + L →
      exec (.strdec fixed) s = .next { s with err := .range }) ∧
    (s.src.toNat + s.cnt.toNat ≤ s.bufSize.val → s.dst.toNat + L ≤ s.bufSize.val →
      (s.cnt.toNat % 2 = 1 ∨ s.cnt.toNat < L →
        exec (.strdec fixed) s = .next { s with err := .arg }) ∧
      ∀ bytes : List Byte, s.cnt.toNat % 2 = 0 → L ≤ s.cnt.toNat →
        bytes.length = s.cnt.toNat → Holds s.buf s.src.toNat bytes →
        ∃ t, exec (.strdec fixed) s = .next t ∧
          t = { s with buf := t.buf, rlen := t.rlen, err := .none } ∧
          t.rlen.toNat = L ∧
          Stores s.buf t.buf s.dst.toNat (strDecode bytes L (s.cfg.getLsbD 2)))

/-- Rule R176: bit i of the array goes to bit (i mod 8) of packed byte (i div 8), true when the byte is nonzero, and the bits above are 0; unpacking gives exactly m bytes, 0x01 or 0x00. -/
def Obligations.BooleanPacking : Prop :=
  (∀ bits : List Byte,
    (pack bits).length = (bits.length + 7) / 8 ∧
    ∀ j k, k < 8 → ((pack bits).getD j 0#8).getLsbD k = decide (bits.getD (8 * j + k) 0#8 ≠ 0#8)) ∧
  ∀ (packed : List Byte) (m : Nat), packed.length = (m + 7) / 8 →
    (unpack packed m).length = m ∧
    ∀ i < m, ∃ b, packed[i / 8]? = some b ∧
      (unpack packed m)[i]? = some (if b.getLsbD (i % 8) then 0x01#8 else 0x00#8)

/-- The boolean laws, which the spec marks as its own inferences (42_string_bool.md section 2, R180 (a), (b)): unpacking what was packed gives the array with nonzero bytes as 0x01; packing what was unpacked gives the bytes with the padding bits cleared. -/
def Obligations.PackUnpackRoundTrips : Prop :=
  (∀ bits : List Byte,
    unpack (pack bits) bits.length = bits.map fun b => if b = 0#8 then 0x00#8 else 0x01#8) ∧
  ∀ (packed : List Byte) (m : Nat), packed.length = (m + 7) / 8 →
    (pack (unpack packed m)).length = packed.length ∧
    ∀ j k, k < 8 → ((pack (unpack packed m)).getD j 0#8).getLsbD k =
      (decide (8 * j + k < m) && (packed.getD j 0#8).getLsbD k)

/-- Rule R177: BPACK. -/
def Obligations.BpackPacksARange : Prop :=
  Selects 0x00000030 .bpack ∧ IllegalUnless 0x30 (· = 0#8) ∧
  ∀ s : State,
    (s.bufSize.val < s.src.toNat + s.cnt.toNat ∨
      s.bufSize.val < s.dst.toNat + (s.cnt.toNat + 7) / 8 →
      exec .bpack s = .next { s with err := .range }) ∧
    ∀ bits : List Byte, s.src.toNat + s.cnt.toNat ≤ s.bufSize.val →
      s.dst.toNat + (s.cnt.toNat + 7) / 8 ≤ s.bufSize.val → bits.length = s.cnt.toNat →
      Holds s.buf s.src.toNat bits →
      ∃ t, exec .bpack s = .next t ∧ t = { s with buf := t.buf, rlen := t.rlen, err := .none } ∧
        t.rlen.toNat = (s.cnt.toNat + 7) / 8 ∧ Stores s.buf t.buf s.dst.toNat (pack bits)

/-- Rule R179: BUNPACK. -/
def Obligations.BunpackUnpacksARange : Prop :=
  Selects 0x00000031 .bunpack ∧ IllegalUnless 0x31 (· = 0#8) ∧
  ∀ s : State,
    (s.bufSize.val < s.src.toNat + (s.cnt.toNat + 7) / 8 ∨
      s.bufSize.val < s.dst.toNat + s.cnt.toNat →
      exec .bunpack s = .next { s with err := .range }) ∧
    ∀ packed : List Byte, s.src.toNat + (s.cnt.toNat + 7) / 8 ≤ s.bufSize.val →
      s.dst.toNat + s.cnt.toNat ≤ s.bufSize.val → packed.length = (s.cnt.toNat + 7) / 8 →
      Holds s.buf s.src.toNat packed →
      ∃ t, exec .bunpack s = .next t ∧
        t = { s with buf := t.buf, rlen := t.rlen, err := .none } ∧
        t.rlen = s.cnt ∧ Stores s.buf t.buf s.dst.toNat (unpack packed s.cnt.toNat)

/- ==== The host port, registers, reset ==== -/

/-- Rules R61, R64, R216: an access that is not a register, 32 bits wide and aligned, or a byte of the window, is answered with a bus error and changes no state; an access of the map is never answered so. (The answers and the name busError are the model's, log entries 3 and 7.) -/
def Obligations.BusErrorsExactlyOffTheMap : Prop :=
  ∀ (s : State) (off : Offset),
    (∀ width, ¬ Accepts s width off →
      access (.read width off) s = .next { s with replies := .busError :: s.replies }) ∧
    (∀ v : BusData, ¬ Accepts s v.width off →
      access (.write off v) s = .next { s with replies := .busError :: s.replies }) ∧
    (∀ (width : Width) (t : State), Accepts s width off → access (.read width off) s = .next t →
      ∃ v : BusData, v.width = width ∧ t = { s with replies := .data v :: s.replies }) ∧
    ∀ (v : BusData) (t : State), Accepts s v.width off → access (.write off v) s = .next t →
      t.replies = .accepted :: s.replies

/-- Rules R43, R62, with the map of R21: a register reads with its reserved bits 0; a host write of a RW register stores the used bits and no others, and a read then gives them back; a write of STATUS or RLEN is accepted and changes nothing; CMD reads 0. (The answers are the model's record, log entry 3.) -/
def Obligations.RegisterWritesStoreTheUsedBits : Prop :=
  ∀ (s : State) (r : Reg),
    s.regRead r &&& usedBits r = s.regRead r ∧
    access (.read .w32 (regOffset r)) s =
      .next { s with replies := .data (.b32 (s.regRead r)) :: s.replies } ∧
    (writable r = true → ∀ v : Word, ∃ t, access (.write (regOffset r) (.b32 v)) s = .next t ∧
      t.regRead r = v &&& usedBits r ∧ t.replies = .accepted :: s.replies) ∧
    (r = .status ∨ r = .rlen → ∀ v : Word, access (.write (regOffset r) (.b32 v)) s =
      .next { s with replies := .accepted :: s.replies }) ∧
    s.regRead .cmd = 0

/-- Rule R65: a host read changes no state (the answer is the host's) and gives the same value when repeated; a write of a register other than CMD, or of a buffer byte, stores its value and leaves every other register and byte; a write of CMD executes a command. (The answers are the model's record, log entry 3.) -/
def Obligations.OnlyCmdWritesHaveSideEffects : Prop :=
  (∀ (s t : State) (width : Width) (off : Offset), access (.read width off) s = .next t →
    ∃ a, t = { s with replies := a :: s.replies } ∧
      access (.read width off) t = .next { t with replies := a :: t.replies }) ∧
  (∀ (s : State) (r : Reg) (v : Word), r ≠ .cmd →
    ∃ t, access (.write (regOffset r) (.b32 v)) s = .next t ∧
      (∀ r', r' ≠ r → t.regRead r' = s.regRead r') ∧ t.buf = s.buf ∧ t.bufSize = s.bufSize ∧
      t.inputs = s.inputs) ∧
  (∀ (s : State) (n : Nat) (v : Byte), n < s.bufSize.val →
    ∃ t, access (.write (BitVec.ofNat 17 (0x10000 + n)) (.b8 v)) s = .next t ∧
      t = { s with buf := t.buf, replies := .accepted :: s.replies } ∧
      Stores s.buf t.buf n [v]) ∧
  ∀ (s : State) (w : Word), access (.write (regOffset .cmd) (.b32 w)) s =
    onNext (fun t => { t with replies := .accepted :: t.replies }) (execWord w s)

/-- Rules R63, R66: a host read of the window returns the byte last written there; a host write of a byte sets it. (The answers are the model's record, log entry 3.) -/
def Obligations.WindowReadsWhatWasWritten : Prop :=
  ∀ (s : State) (n : Nat) (v : Byte), n < s.bufSize.val →
    (s.buf.read n = some v →
      access (.read .w8 (BitVec.ofNat 17 (0x10000 + n))) s =
        .next { s with replies := .data (.b8 v) :: s.replies }) ∧
    ∃ t, access (.write (BitVec.ofNat 17 (0x10000 + n)) (.b8 v)) s = .next t ∧
      access (.read .w8 (BitVec.ofNat 17 (0x10000 + n))) t =
        .next { t with replies := .data (.b8 v) :: t.replies }

/-- Rules R28, R29, R31: the fields of STATUS at their places with their codes, every other bit 0. -/
def Obligations.StatusLayout : Prop :=
  ∀ s : State,
    (s.regRead .status).extractLsb' 0 4 = (match s.err with
      | .none => 0#4 | .illegal => 1#4 | .range => 2#4 | .arg => 3#4) ∧
    (s.regRead .status).extractLsb' 4 1 = BitVec.ofBool s.crcOk ∧
    (s.regRead .status).extractLsb' 5 3 = 0#3 ∧
    (s.regRead .status).extractLsb' 8 3 = (match s.fres with
      | .none => 0#3 | .ok => 1#3 | .short => 2#3 | .crc => 3#3 | .exc => 4#3) ∧
    (s.regRead .status).extractLsb' 11 5 = 0#5 ∧
    (s.regRead .status).extractLsb' 16 8 = s.exc ∧
    (s.regRead .status).extractLsb' 24 8 = 0#8

/-- Rule R33: DATA_LO = DATA[31:0] and DATA_HI = DATA[63:32]; a host write of one changes only its half. (The answers are the model's record, log entry 3.) -/
def Obligations.DataHalves : Prop :=
  ∀ (s : State) (v : Word),
    s.data = s.regRead .dataHi ++ s.regRead .dataLo ∧
    access (.write 0x14#17 (.b32 v)) s = .next { s with
      data := s.regRead .dataHi ++ v, replies := .accepted :: s.replies } ∧
    access (.write 0x18#17 (.b32 v)) s = .next { s with
      data := v ++ s.regRead .dataLo, replies := .accepted :: s.replies }

/-- Rule R20: "No state is hidden: every register is readable by the host, and the block keeps nothing between commands that is not listed here". Two well-formed states whose twelve registers read alike and whose buffer bytes read alike (unwritten ones included) are the same state of the block. (BUF_SIZE, the host's accesses to come and the answers given are the model's own fields, log entries 1 to 3, and are premises.) -/
def Obligations.NoHiddenState : Prop :=
  ∀ s t : State, s.wf = true → t.wf = true → t.bufSize = s.bufSize → t.inputs = s.inputs →
    t.replies = s.replies → (∀ r, t.regRead r = s.regRead r) →
    (∀ n < s.bufSize.val, t.buf.read n = s.buf.read n) → t = s

/-- Rules R21, R240, R241: after reset the twelve registers read their reset values and every byte of BUF is unwritten, for every BUF_SIZE of rule R6; `State.reset` is that state at the default size, 256 (log entry 1). -/
def Obligations.ResetValues : Prop :=
  (∀ size : BufSize,
    let s := State.resetOf size
    s.bufSize = size ∧ s.regRead .cfg = 0x00000001 ∧ s.regRead .crc = 0x0000FFFF ∧
    s.regRead .len = 0 ∧ s.regRead .cmd = 0 ∧ s.regRead .status = 0 ∧
    s.regRead .dataLo = 0 ∧ s.regRead .dataHi = 0 ∧
    s.regRead .src = 0 ∧ s.regRead .dst = 0 ∧ s.regRead .cnt = 0 ∧
    s.regRead .aux = 0 ∧ s.regRead .rlen = 0 ∧
    ∀ n, s.buf.read n = none) ∧
  State.reset = State.resetOf BufSize.standard ∧ BufSize.standard.val = 256

/-- The reset input in any state (rules R240, R241; log entry 4: assertion and release are one input): every register takes its reset value, every byte of BUF becomes unwritten, and nothing of an earlier command is left; the host's own record stays. -/
def Obligations.ResetInputResetsTheBlock : Prop :=
  ∀ (s : State) (rest : List HostInput), s.inputs = .reset :: rest →
    ∃ t, step s = .next t ∧ (∀ r, t.regRead r = State.reset.regRead r) ∧
      (∀ n, t.buf.read n = none) ∧ t.bufSize = s.bufSize ∧ t.inputs = rest ∧
      t.replies = s.replies

/-- With no host input waiting, the block waits and keeps every register and byte (70_reset_and_hazards.md R242, 60_exceptions.md R224; log entry 9: the model's own reading of waiting). -/
def Obligations.WaitingChangesNothing : Prop :=
  ∀ s : State, s.inputs = [] → step s = .next s

/-- Rule R98: what the pseudo-instructions do, run as the accesses they expand to. LOAD stores its bytes, OPS its four operands, SETCFG the three flags, DATA64 all of DATA, and CRCRANGE leaves crc16 of its range in CRC. (The answers are the model's record, log entry 3.) -/
def Obligations.PseudoInstructionsDoWhatTheyExpandTo : Prop :=
  ∀ s : State,
    (∀ (i : Half) (bytes : List Byte), (HostLine.load i bytes).wellFormed = true →
      i.toNat + bytes.length ≤ s.bufSize.val →
      ∃ t, accessAll (lineAccesses (.load i bytes)) s = .next t ∧
        t = { s with buf := t.buf, replies := List.replicate bytes.length .accepted ++ s.replies } ∧
        Stores s.buf t.buf i.toNat bytes) ∧
    (∀ a d n x : Word, accessAll (lineAccesses (.ops a d n x)) s = .next { s with
      src := a.setWidth 16, dst := d.setWidth 16, cnt := n.setWidth 16, aux := x.setWidth 16
      replies := List.replicate 4 .accepted ++ s.replies }) ∧
    (∀ ws mws sws : Bool, ∃ t, accessAll (lineAccesses (.setcfg ws mws sws)) s = .next t ∧
      t = { s with cfg := t.cfg, replies := .accepted :: s.replies } ∧
      t.ws = ws ∧ t.mws = mws ∧ t.sws = sws) ∧
    (∀ v : BitVec 64, accessAll (lineAccesses (.data64 v)) s = .next { s with
      data := v, replies := List.replicate 2 .accepted ++ s.replies }) ∧
    ∀ (a n : Half) (bytes : List Byte), a.toNat + n.toNat ≤ s.bufSize.val →
      bytes.length = n.toNat → Holds s.buf a.toNat bytes →
      accessAll (lineAccesses (.crcRange (a.setWidth 32) (n.setWidth 32))) s = .next { s with
        src := a, cnt := n, crc := crc16 bytes, err := .none
        replies := List.replicate 4 .accepted ++ s.replies }
end

