-- ==== Sys2Proof/Laws/Memory.lean ====
section
/-! SUPPORT. The laws of BUF: a read after a write, writes elsewhere, the canonical form kept by every operation, and buffers that read alike being equal. -/

namespace Sys2Proof.Machine

@[simp] theorem read_nil (a : Nat) : Memory.read [] a = none := rfl

@[simp] theorem read_write_same (m : Memory) (a : Nat) (v : Byte) :
    (Memory.write m a v).read a = some v := by
  induction m with
  | nil => simp [Memory.write, Memory.read]
  | cons c m ih =>
    obtain ⟨p, b⟩ := c
    simp only [Memory.write]
    split
    · simp [Memory.read]
    · split
      · simp [Memory.read]
      · next h => simp [Memory.read, h, ih]

theorem read_write_other (m : Memory) {a a' : Nat} (v : Byte) (h : a' ≠ a) :
    (Memory.write m a v).read a' = m.read a' := by
  induction m with
  | nil => simp [Memory.write, Memory.read, h]
  | cons c m ih =>
    obtain ⟨p, b⟩ := c
    simp only [Memory.write]
    split
    · simp [Memory.read, h]
    · split
      · next h2 => subst h2; simp [Memory.read, h]
      · simp [Memory.read, ih]

/-- A write, read back anywhere. -/
theorem read_write (m : Memory) (a a' : Nat) (v : Byte) :
    (Memory.write m a v).read a' = if a' = a then some v else m.read a' := by
  split
  · next h => subst h; simp
  · next h => exact read_write_other m v h

theorem risesFrom_mono {m : Memory} {j k : Nat} (hjk : j ≤ k) (h : m.risesFrom k = true) :
    m.risesFrom j = true := by
  cases m with
  | nil => rfl
  | cons c m =>
    simp only [Memory.risesFrom, Bool.and_eq_true, decide_eq_true_eq] at h ⊢
    exact ⟨by omega, h.2⟩

theorem risesFrom_write {m : Memory} {k a : Nat} (v : Byte) (hk : k ≤ a)
    (h : m.risesFrom k = true) : (Memory.write m a v).risesFrom k = true := by
  induction m generalizing k with
  | nil => simp [Memory.write, Memory.risesFrom, hk]
  | cons c m ih =>
    obtain ⟨p, b⟩ := c
    simp only [Memory.risesFrom, Bool.and_eq_true, decide_eq_true_eq] at h
    simp only [Memory.write]
    split
    · simp [Memory.risesFrom, hk]; exact ⟨by omega, h.2⟩
    · split
      · next h2 => subst h2; simp [Memory.risesFrom, hk, h.2]
      · simp [Memory.risesFrom, h.1]; exact ih (by omega) h.2

/-- A write keeps the canonical form. -/
theorem wf_write {m : Memory} (a : Nat) (v : Byte) (h : m.wf = true) :
    (Memory.write m a v).wf = true := risesFrom_write v (Nat.zero_le a) h

/-- The buffer of the reset state is canonical. -/
theorem wf_reset : State.reset.buf.wf = true := rfl

theorem within_write {m : Memory} {size a : Nat} (v : Byte) (ha : a < size)
    (h : m.within size = true) : (Memory.write m a v).within size = true := by
  induction m with
  | nil => simp [Memory.write, Memory.within, ha]
  | cons c m ih =>
    obtain ⟨p, b⟩ := c
    simp only [Memory.within, List.all_cons, Bool.and_eq_true, decide_eq_true_eq] at h ih
    simp only [Memory.write]
    split
    · simp only [Memory.within, List.all_cons, Bool.and_eq_true, decide_eq_true_eq]; exact ⟨ha, h⟩
    · split
      · simp only [Memory.within, List.all_cons, Bool.and_eq_true, decide_eq_true_eq]
        exact ⟨ha, h.2⟩
      · simp only [Memory.within, List.all_cons, Bool.and_eq_true, decide_eq_true_eq]
        exact ⟨h.1, ih h.2⟩

@[simp] theorem writeAll_nil (m : Memory) (a : Nat) : m.writeAll a [] = m := rfl

@[simp] theorem writeAll_cons (m : Memory) (a : Nat) (b : Byte) (bs : List Byte) :
    m.writeAll a (b :: bs) = (m.write a b).writeAll (a + 1) bs := rfl

/-- A range written, read back anywhere. -/
theorem read_writeAll (m : Memory) (a : Nat) (bs : List Byte) (p : Nat) :
    (m.writeAll a bs).read p =
      if a ≤ p ∧ p < a + bs.length then bs[p - a]? else m.read p := by
  induction bs generalizing m a with
  | nil => simp
  | cons b bs ih =>
    rw [writeAll_cons, ih, read_write]
    simp only [List.length_cons]
    by_cases h1 : p = a
    · subst h1; simp
    · by_cases h2 : a + 1 ≤ p ∧ p < a + 1 + bs.length
      · rw [if_pos h2, if_pos (by omega), show p - a = (p - (a + 1)) + 1 by omega]
        simp
      · rw [if_neg h2, if_neg h1, if_neg (by omega)]

/-- `MemWrite` stores its bytes and changes no other position. -/
theorem stores_writeAll (m : Memory) (a : Nat) (bs : List Byte) :
    Stores m (m.writeAll a bs) a bs := by
  refine ⟨fun k b hb => ?_, fun p hp => ?_⟩
  · have hk : k < bs.length := (List.getElem?_eq_some_iff.mp hb).1
    rw [read_writeAll, if_pos (by omega), show a + k - a = k by omega, hb]
  · rw [read_writeAll, if_neg (by omega)]

theorem wf_writeAll {m : Memory} (a : Nat) (bs : List Byte) (h : m.wf = true) :
    (m.writeAll a bs).wf = true := by
  induction bs generalizing m a with
  | nil => exact h
  | cons b bs ih => exact ih (a + 1) (wf_write a b h)

theorem within_writeAll {m : Memory} {size a : Nat} {bs : List Byte}
    (ha : a + bs.length ≤ size) (h : m.within size = true) :
    (m.writeAll a bs).within size = true := by
  induction bs generalizing m a with
  | nil => exact h
  | cons b bs ih =>
    simp only [List.length_cons] at ha
    exact ih (by omega) (within_write b (by omega) h)

theorem read_none_of_risesFrom {m : Memory} {k a : Nat} (h : m.risesFrom k = true) (ha : a < k) :
    m.read a = none := by
  induction m generalizing k with
  | nil => rfl
  | cons c m ih =>
    obtain ⟨p, b⟩ := c
    simp only [Memory.risesFrom, Bool.and_eq_true, decide_eq_true_eq] at h
    rw [Memory.read, if_neg (by omega)]
    exact ih h.2 (by omega)

theorem eq_of_sameBytes_of_risesFrom {m m' : Memory} {k : Nat} (h : m.risesFrom k = true)
    (h' : m'.risesFrom k = true) (hr : SameBytes m m') : m' = m := by
  induction m generalizing m' k with
  | nil =>
    cases m' with
    | nil => rfl
    | cons c m' => obtain ⟨p, b⟩ := c; have := hr p; simp [Memory.read] at this
  | cons c m ih =>
    obtain ⟨p, b⟩ := c
    cases m' with
    | nil => have := hr p; simp [Memory.read] at this
    | cons c' m' =>
      obtain ⟨p', b'⟩ := c'
      simp only [Memory.risesFrom, Bool.and_eq_true, decide_eq_true_eq] at h h'
      have hp : p' = p := by
        rcases Nat.lt_trichotomy p' p with hlt | heq | hgt
        · have := hr p'
          rw [Memory.read, if_pos rfl, Memory.read, if_neg (by omega),
            read_none_of_risesFrom h.2 (by omega)] at this
          cases this
        · exact heq
        · have := hr p
          rw [Memory.read, if_neg (by omega), read_none_of_risesFrom h'.2 (by omega), Memory.read,
            if_pos rfl] at this
          cases this
      subst hp
      have hb : b' = b := by simpa [Memory.read] using hr p'
      subst hb
      have hm : m' = m := by
        refine ih h.2 h'.2 fun q => ?_
        by_cases hq : q < p' + 1
        · rw [read_none_of_risesFrom h.2 hq, read_none_of_risesFrom h'.2 hq]
        · have := hr q
          rwa [Memory.read, if_neg (by omega), Memory.read, if_neg (by omega)] at this
      rw [hm]

/-- Canonical buffers that read alike are equal. -/
theorem eq_of_sameBytes {m m' : Memory} (h : m.wf = true) (h' : m'.wf = true)
    (hr : SameBytes m m') : m' = m := eq_of_sameBytes_of_risesFrom h h' hr

theorem read_lt_of_within {m : Memory} {size p : Nat} {b : Byte} (h : m.within size = true)
    (hp : m.read p = some b) : p < size := by
  induction m with
  | nil => cases hp
  | cons c m ih =>
    obtain ⟨q, d⟩ := c
    simp only [Memory.within, List.all_cons, Bool.and_eq_true, decide_eq_true_eq] at h ih
    rw [Memory.read] at hp
    split at hp
    · next he => omega
    · exact ih h.2 hp

end Sys2Proof.Machine
end

