-- ==== Sys2Proof/Laws/Ops.lean ====
section
/-! SUPPORT. What the shared operations can do, said once: MemRead, the checks, and the reads that go on or fault. -/

namespace Sys2Proof.Machine

theorem bufRead_eq_ok {s : State} {i : Nat} {b : Byte} :
    bufRead s i = .ok b ↔ s.buf.read i = some b := by
  unfold bufRead; cases s.buf.read i <;> simp

theorem bufRead_eq_error {s : State} {i : Nat} {f : Fault} :
    bufRead s i = .error f ↔ s.buf.read i = none ∧ f = .unwritten i := by
  unfold bufRead; cases s.buf.read i <;> simp [eq_comm]

theorem holds_nil (m : Memory) (a : Nat) : Holds m a [] := fun k b h => by simp at h

theorem holds_cons {m : Memory} {a : Nat} {b : Byte} {bs : List Byte} :
    Holds m a (b :: bs) ↔ m.read a = some b ∧ Holds m (a + 1) bs := by
  constructor
  · intro h
    exact ⟨h 0 b rfl, fun k c hk => by
      have := h (k + 1) c (by simpa using hk)
      rwa [show a + 1 + k = a + (k + 1) by omega]⟩
  · rintro ⟨h0, h1⟩ k c hk
    cases k with
    | zero => simp at hk; subst hk; simpa using h0
    | succ k =>
      have := h1 k c (by simpa using hk)
      rwa [show a + (k + 1) = a + 1 + k by omega]

theorem holds_append {m : Memory} {a : Nat} {bs cs : List Byte} :
    Holds m a (bs ++ cs) ↔ Holds m a bs ∧ Holds m (a + bs.length) cs := by
  induction bs generalizing a with
  | nil => simp [holds_nil]
  | cons b bs ih =>
    rw [List.cons_append, holds_cons, ih, holds_cons, List.length_cons,
      show a + 1 + bs.length = a + (bs.length + 1) by omega, and_assoc]

/-- Two lists of one length that a range holds are the same list. -/
theorem holds_unique {m : Memory} {a : Nat} {bs cs : List Byte} (hb : Holds m a bs)
    (hc : Holds m a cs) (hl : bs.length = cs.length) : bs = cs := by
  induction bs generalizing a cs with
  | nil => cases cs with
    | nil => rfl
    | cons c cs => simp at hl
  | cons b bs ih => cases cs with
    | nil => simp at hl
    | cons c cs =>
      rw [holds_cons] at hb hc
      obtain rfl : b = c := by simpa using hb.1.symm.trans hc.1
      rw [ih hb.2 hc.2 (by simpa using hl)]

/-- A range that another buffer holds is held wherever the two read alike. -/
theorem holds_congr {m m' : Memory} {a : Nat} {bs : List Byte}
    (h : ∀ p, a ≤ p → p < a + bs.length → m'.read p = m.read p) (hb : Holds m a bs) :
    Holds m' a bs := by
  intro k b hk
  have := (List.getElem?_eq_some_iff.mp hk).1
  rw [h (a + k) (by omega) (by omega)]
  exact hb k b hk

/-- `MemRead(a, n)` answers n bytes exactly when the range holds them. -/
theorem memRead_eq_ok {s : State} {a n : Nat} {bs : List Byte} :
    memRead s a n = .ok bs ↔ bs.length = n ∧ Holds s.buf a bs := by
  induction n generalizing a bs with
  | zero =>
    constructor
    · intro h; cases h; exact ⟨rfl, holds_nil _ _⟩
    · rintro ⟨h, -⟩; rw [List.length_eq_zero_iff.mp h]; rfl
  | succ n ih =>
    rw [memRead]
    constructor
    · intro h
      split at h
      · cases h
      · next b hb =>
        split at h
        · cases h
        · next cs hcs =>
          cases h
          have := ih.mp hcs
          exact ⟨by simp [this.1], holds_cons.mpr ⟨bufRead_eq_ok.mp hb, this.2⟩⟩
    · rintro ⟨hl, hh⟩
      cases bs with
      | nil => simp at hl
      | cons b bs =>
        rw [holds_cons] at hh
        rw [bufRead_eq_ok.mpr hh.1, ih.mpr ⟨by simpa using hl, hh.2⟩]

/-- `MemRead(a, n)` faults exactly on the lowest unwritten position of the range. -/
theorem memRead_eq_error {s : State} {a n : Nat} {f : Fault} :
    memRead s a n = .error f ↔ ∃ p, FirstUnwritten s.buf a n p ∧ f = .unwritten p := by
  induction n generalizing a with
  | zero =>
    constructor
    · intro h; cases h
    · rintro ⟨p, ⟨h1, h2, -⟩, -⟩; omega
  | succ n ih =>
    rw [memRead]
    cases hb : bufRead s a with
    | error g =>
      obtain ⟨hn, rfl⟩ := bufRead_eq_error.mp hb
      constructor
      · intro h; cases h
        exact ⟨a, ⟨le_rfl, by omega, hn, fun q h1 h2 => absurd h2 (by omega)⟩, rfl⟩
      · rintro ⟨p, ⟨h1, h2, h3, h4⟩, rfl⟩
        rcases Nat.eq_or_lt_of_le h1 with rfl | hlt
        · rfl
        · have := h4 a le_rfl hlt; simp [hn] at this
    | ok b =>
      have hr := bufRead_eq_ok.mp hb
      have key : (∃ p, FirstUnwritten s.buf a (n + 1) p ∧ f = .unwritten p) ↔
          ∃ p, FirstUnwritten s.buf (a + 1) n p ∧ f = .unwritten p := by
        constructor
        · rintro ⟨p, ⟨h1, h2, h3, h4⟩, rfl⟩
          have hne : a ≠ p := fun h => by subst h; simp [hr] at h3
          exact ⟨p, ⟨by omega, by omega, h3, fun q hq hq' => h4 q (by omega) hq'⟩, rfl⟩
        · rintro ⟨p, ⟨h1, h2, h3, h4⟩, rfl⟩
          refine ⟨p, ⟨by omega, by omega, h3, fun q hq hq' => ?_⟩, rfl⟩
          rcases Nat.eq_or_lt_of_le hq with rfl | hlt
          · simp [hr]
          · exact h4 q (by omega) hq'
      rw [key, ← ih]
      cases hm : memRead s (a + 1) n with
      | error g => simp
      | ok cs => simp

/-- A written range holds some bytes, as many as it has positions. -/
theorem holds_of_written {m : Memory} {a n : Nat} (h : Written m a n) :
    ∃ bs : List Byte, bs.length = n ∧ Holds m a bs := by
  induction n generalizing a with
  | zero => exact ⟨[], rfl, holds_nil _ _⟩
  | succ n ih =>
    obtain ⟨b, hb⟩ := Option.isSome_iff_exists.mp (h a le_rfl (by omega))
    obtain ⟨bs, hl, hh⟩ := ih (a := a + 1) fun p h1 h2 => h p (by omega) (by omega)
    exact ⟨b :: bs, by simp [hl], holds_cons.mpr ⟨hb, hh⟩⟩

theorem written_of_holds {m : Memory} {a : Nat} {bs : List Byte} (h : Holds m a bs) :
    Written m a bs.length := by
  intro p h1 h2
  have := h (p - a) bs[p - a] (List.getElem?_eq_getElem (by omega))
  rw [show a + (p - a) = p by omega] at this
  simp [this]

/-- A range is written, or it has a lowest unwritten position. -/
theorem written_or_firstUnwritten (m : Memory) (a n : Nat) :
    Written m a n ∨ ∃ p, FirstUnwritten m a n p := by
  cases h : memRead { State.reset with buf := m } a n with
  | ok bs =>
    obtain ⟨hl, hh⟩ := memRead_eq_ok.mp h
    exact .inl (hl ▸ written_of_holds hh)
  | error f =>
    obtain ⟨p, hp, -⟩ := memRead_eq_error.mp h
    exact .inr ⟨p, hp⟩

theorem not_written_of_firstUnwritten {m : Memory} {a n p : Nat} (h : FirstUnwritten m a n p) :
    ¬ Written m a n := fun hw => by simpa [h.2.2.1] using hw p h.1 h.2.1

theorem requireRange_fits {a n : Nat} {s : State} (k : Result) (h : a + n ≤ s.bufSize.val) :
    requireRange a n s k = k := if_pos h

theorem requireRange_error {a n : Nat} {s : State} (k : Result) (h : s.bufSize.val < a + n) :
    requireRange a n s k = .next { s with err := .range } := if_neg (by omega)

/-- A range check, taken apart: the command went on, or it failed and changed ERR alone. -/
theorem requireRange_cases {a n : Nat} {s : State} {k r : Result}
    (h : requireRange a n s k = r) :
    (a + n ≤ s.bufSize.val ∧ k = r) ∨
      (s.bufSize.val < a + n ∧ r = .next { s with err := .range }) := by
  unfold requireRange at h
  split at h
  · exact .inl ⟨‹_›, h⟩
  · exact .inr ⟨by omega, h.symm⟩

theorem requireArg_cases {c : Bool} {s : State} {k r : Result} (h : requireArg c s k = r) :
    (c = true ∧ k = r) ∨ (c = false ∧ r = .next { s with err := .arg }) := by
  unfold requireArg at h
  cases c with
  | true => exact .inl ⟨rfl, h⟩
  | false => exact .inr ⟨rfl, h.symm⟩

@[simp] theorem reading_ok {α : Type} (x : α) (k : α → Result) : reading (.ok x) k = k x := rfl

@[simp] theorem reading_error {α : Type} (f : Fault) (k : α → Result) :
    reading (.error f) k = .fault f := rfl

theorem reading_memRead_of_holds {s : State} {a : Nat} {bs : List Byte} (k : List Byte → Result)
    (h : Holds s.buf a bs) : reading (memRead s a bs.length) k = k bs := by
  rw [memRead_eq_ok.mpr ⟨rfl, h⟩, reading_ok]

theorem reading_memRead_of_firstUnwritten {s : State} {a n p : Nat} (k : List Byte → Result)
    (h : FirstUnwritten s.buf a n p) : reading (memRead s a n) k = .fault (.unwritten p) := by
  rw [memRead_eq_error.mpr ⟨p, h, rfl⟩, reading_error]

/-- A range read, taken apart: the bytes it holds, or the fault on its lowest unwritten position. -/
theorem reading_memRead_cases {s : State} {a n : Nat} {k : List Byte → Result} {r : Result}
    (h : reading (memRead s a n) k = r) :
    (∃ bs, bs.length = n ∧ Holds s.buf a bs ∧ k bs = r) ∨
      ∃ p, FirstUnwritten s.buf a n p ∧ r = .fault (.unwritten p) := by
  cases hm : memRead s a n with
  | ok bs =>
    obtain ⟨hl, hh⟩ := memRead_eq_ok.mp hm
    exact .inl ⟨bs, hl, hh, by rw [hm, reading_ok] at h; exact h⟩
  | error f =>
    obtain ⟨p, hp, rfl⟩ := memRead_eq_error.mp hm
    exact .inr ⟨p, hp, by rw [hm, reading_error] at h; exact h.symm⟩

/-- The end of every completed command. -/
@[simp] theorem complete_eq (s : State) : complete s = .next { s with err := .none } := rfl

@[simp] theorem cmdError_eq (code : CmdErr) (s : State) :
    cmdError code s = .next { s with err := code } := rfl

end Sys2Proof.Machine
end

