-- ==== Sys2Proof/Laws/State.lean ====
section
/-! SUPPORT. One lemma per field per named update of State, each true by rfl, so that no proof unfolds a record update. -/

namespace Sys2Proof.Machine

section reply

@[simp] theorem reply_bufSize (s : State) (r : Reply) : (s.reply r).bufSize = s.bufSize := rfl
@[simp] theorem reply_cfg (s : State) (r : Reply) : (s.reply r).cfg = s.cfg := rfl
@[simp] theorem reply_crc (s : State) (r : Reply) : (s.reply r).crc = s.crc := rfl
@[simp] theorem reply_len (s : State) (r : Reply) : (s.reply r).len = s.len := rfl
@[simp] theorem reply_err (s : State) (r : Reply) : (s.reply r).err = s.err := rfl
@[simp] theorem reply_crcOk (s : State) (r : Reply) : (s.reply r).crcOk = s.crcOk := rfl
@[simp] theorem reply_fres (s : State) (r : Reply) : (s.reply r).fres = s.fres := rfl
@[simp] theorem reply_exc (s : State) (r : Reply) : (s.reply r).exc = s.exc := rfl
@[simp] theorem reply_data (s : State) (r : Reply) : (s.reply r).data = s.data := rfl
@[simp] theorem reply_src (s : State) (r : Reply) : (s.reply r).src = s.src := rfl
@[simp] theorem reply_dst (s : State) (r : Reply) : (s.reply r).dst = s.dst := rfl
@[simp] theorem reply_cnt (s : State) (r : Reply) : (s.reply r).cnt = s.cnt := rfl
@[simp] theorem reply_aux (s : State) (r : Reply) : (s.reply r).aux = s.aux := rfl
@[simp] theorem reply_rlen (s : State) (r : Reply) : (s.reply r).rlen = s.rlen := rfl
@[simp] theorem reply_buf (s : State) (r : Reply) : (s.reply r).buf = s.buf := rfl
@[simp] theorem reply_inputs (s : State) (r : Reply) : (s.reply r).inputs = s.inputs := rfl
@[simp] theorem reply_replies (s : State) (r : Reply) : (s.reply r).replies = r :: s.replies := rfl

end reply

section withVerdict

@[simp] theorem withVerdict_bufSize (s : State) (ok : Bool) (v : FrameResult) (e : Byte) : (s.withVerdict ok v e).bufSize = s.bufSize := rfl
@[simp] theorem withVerdict_cfg (s : State) (ok : Bool) (v : FrameResult) (e : Byte) : (s.withVerdict ok v e).cfg = s.cfg := rfl
@[simp] theorem withVerdict_crc (s : State) (ok : Bool) (v : FrameResult) (e : Byte) : (s.withVerdict ok v e).crc = s.crc := rfl
@[simp] theorem withVerdict_len (s : State) (ok : Bool) (v : FrameResult) (e : Byte) : (s.withVerdict ok v e).len = s.len := rfl
@[simp] theorem withVerdict_err (s : State) (ok : Bool) (v : FrameResult) (e : Byte) : (s.withVerdict ok v e).err = s.err := rfl
@[simp] theorem withVerdict_crcOk (s : State) (ok : Bool) (v : FrameResult) (e : Byte) : (s.withVerdict ok v e).crcOk = ok := rfl
@[simp] theorem withVerdict_fres (s : State) (ok : Bool) (v : FrameResult) (e : Byte) : (s.withVerdict ok v e).fres = v := rfl
@[simp] theorem withVerdict_exc (s : State) (ok : Bool) (v : FrameResult) (e : Byte) : (s.withVerdict ok v e).exc = e := rfl
@[simp] theorem withVerdict_data (s : State) (ok : Bool) (v : FrameResult) (e : Byte) : (s.withVerdict ok v e).data = s.data := rfl
@[simp] theorem withVerdict_src (s : State) (ok : Bool) (v : FrameResult) (e : Byte) : (s.withVerdict ok v e).src = s.src := rfl
@[simp] theorem withVerdict_dst (s : State) (ok : Bool) (v : FrameResult) (e : Byte) : (s.withVerdict ok v e).dst = s.dst := rfl
@[simp] theorem withVerdict_cnt (s : State) (ok : Bool) (v : FrameResult) (e : Byte) : (s.withVerdict ok v e).cnt = s.cnt := rfl
@[simp] theorem withVerdict_aux (s : State) (ok : Bool) (v : FrameResult) (e : Byte) : (s.withVerdict ok v e).aux = s.aux := rfl
@[simp] theorem withVerdict_rlen (s : State) (ok : Bool) (v : FrameResult) (e : Byte) : (s.withVerdict ok v e).rlen = s.rlen := rfl
@[simp] theorem withVerdict_buf (s : State) (ok : Bool) (v : FrameResult) (e : Byte) : (s.withVerdict ok v e).buf = s.buf := rfl
@[simp] theorem withVerdict_inputs (s : State) (ok : Bool) (v : FrameResult) (e : Byte) : (s.withVerdict ok v e).inputs = s.inputs := rfl
@[simp] theorem withVerdict_replies (s : State) (ok : Bool) (v : FrameResult) (e : Byte) : (s.withVerdict ok v e).replies = s.replies := rfl

end withVerdict

section storeAtDst

@[simp] theorem storeAtDst_bufSize (out : List Byte) (n : Nat) (s : State) : (storeAtDst out n s).bufSize = s.bufSize := rfl
@[simp] theorem storeAtDst_cfg (out : List Byte) (n : Nat) (s : State) : (storeAtDst out n s).cfg = s.cfg := rfl
@[simp] theorem storeAtDst_crc (out : List Byte) (n : Nat) (s : State) : (storeAtDst out n s).crc = s.crc := rfl
@[simp] theorem storeAtDst_len (out : List Byte) (n : Nat) (s : State) : (storeAtDst out n s).len = s.len := rfl
@[simp] theorem storeAtDst_err (out : List Byte) (n : Nat) (s : State) : (storeAtDst out n s).err = s.err := rfl
@[simp] theorem storeAtDst_crcOk (out : List Byte) (n : Nat) (s : State) : (storeAtDst out n s).crcOk = s.crcOk := rfl
@[simp] theorem storeAtDst_fres (out : List Byte) (n : Nat) (s : State) : (storeAtDst out n s).fres = s.fres := rfl
@[simp] theorem storeAtDst_exc (out : List Byte) (n : Nat) (s : State) : (storeAtDst out n s).exc = s.exc := rfl
@[simp] theorem storeAtDst_data (out : List Byte) (n : Nat) (s : State) : (storeAtDst out n s).data = s.data := rfl
@[simp] theorem storeAtDst_src (out : List Byte) (n : Nat) (s : State) : (storeAtDst out n s).src = s.src := rfl
@[simp] theorem storeAtDst_dst (out : List Byte) (n : Nat) (s : State) : (storeAtDst out n s).dst = s.dst := rfl
@[simp] theorem storeAtDst_cnt (out : List Byte) (n : Nat) (s : State) : (storeAtDst out n s).cnt = s.cnt := rfl
@[simp] theorem storeAtDst_aux (out : List Byte) (n : Nat) (s : State) : (storeAtDst out n s).aux = s.aux := rfl
@[simp] theorem storeAtDst_rlen (out : List Byte) (n : Nat) (s : State) : (storeAtDst out n s).rlen = BitVec.ofNat 16 n := rfl
@[simp] theorem storeAtDst_buf (out : List Byte) (n : Nat) (s : State) : (storeAtDst out n s).buf = s.buf.writeAll s.dst.toNat out := rfl
@[simp] theorem storeAtDst_inputs (out : List Byte) (n : Nat) (s : State) : (storeAtDst out n s).inputs = s.inputs := rfl
@[simp] theorem storeAtDst_replies (out : List Byte) (n : Nat) (s : State) : (storeAtDst out n s).replies = s.replies := rfl

end storeAtDst

section withFetchWord

@[simp] theorem withFetchWord_bufSize (s : State) (nbits w : Nat) : (s.withFetchWord nbits w).bufSize = s.bufSize := rfl
@[simp] theorem withFetchWord_cfg (s : State) (nbits w : Nat) : (s.withFetchWord nbits w).cfg = s.cfg := rfl
@[simp] theorem withFetchWord_crc (s : State) (nbits w : Nat) : (s.withFetchWord nbits w).crc = s.crc := rfl
@[simp] theorem withFetchWord_len (s : State) (nbits w : Nat) : (s.withFetchWord nbits w).len = s.len := rfl
@[simp] theorem withFetchWord_err (s : State) (nbits w : Nat) : (s.withFetchWord nbits w).err = s.err := rfl
@[simp] theorem withFetchWord_crcOk (s : State) (nbits w : Nat) : (s.withFetchWord nbits w).crcOk = s.crcOk := rfl
@[simp] theorem withFetchWord_fres (s : State) (nbits w : Nat) : (s.withFetchWord nbits w).fres = s.fres := rfl
@[simp] theorem withFetchWord_exc (s : State) (nbits w : Nat) : (s.withFetchWord nbits w).exc = s.exc := rfl
@[simp] theorem withFetchWord_data (s : State) (nbits w : Nat) : (s.withFetchWord nbits w).data = s.data := rfl
@[simp] theorem withFetchWord_src (s : State) (nbits w : Nat) : (s.withFetchWord nbits w).src = s.src := rfl
@[simp] theorem withFetchWord_dst (s : State) (nbits w : Nat) : (s.withFetchWord nbits w).dst = s.dst := rfl
@[simp] theorem withFetchWord_cnt (s : State) (nbits w : Nat) : (s.withFetchWord nbits w).cnt = s.cnt := rfl
@[simp] theorem withFetchWord_aux (s : State) (nbits w : Nat) : (s.withFetchWord nbits w).aux = s.aux := rfl
@[simp] theorem withFetchWord_rlen (s : State) (nbits w : Nat) : (s.withFetchWord nbits w).rlen = s.rlen := rfl
@[simp] theorem withFetchWord_buf (s : State) (nbits w : Nat) : (s.withFetchWord nbits w).buf = s.buf := rfl
@[simp] theorem withFetchWord_inputs (s : State) (nbits w : Nat) : (s.withFetchWord nbits w).inputs = cmdWrite (BitVec.ofNat 32 w) :: s.inputs := rfl
@[simp] theorem withFetchWord_replies (s : State) (nbits w : Nat) : (s.withFetchWord nbits w).replies = s.replies := rfl

end withFetchWord

section withProgram

@[simp] theorem withProgram_bufSize (s : State) (p : List HostLine) : (s.withProgram p).bufSize = s.bufSize := rfl
@[simp] theorem withProgram_cfg (s : State) (p : List HostLine) : (s.withProgram p).cfg = s.cfg := rfl
@[simp] theorem withProgram_crc (s : State) (p : List HostLine) : (s.withProgram p).crc = s.crc := rfl
@[simp] theorem withProgram_len (s : State) (p : List HostLine) : (s.withProgram p).len = s.len := rfl
@[simp] theorem withProgram_err (s : State) (p : List HostLine) : (s.withProgram p).err = s.err := rfl
@[simp] theorem withProgram_crcOk (s : State) (p : List HostLine) : (s.withProgram p).crcOk = s.crcOk := rfl
@[simp] theorem withProgram_fres (s : State) (p : List HostLine) : (s.withProgram p).fres = s.fres := rfl
@[simp] theorem withProgram_exc (s : State) (p : List HostLine) : (s.withProgram p).exc = s.exc := rfl
@[simp] theorem withProgram_data (s : State) (p : List HostLine) : (s.withProgram p).data = s.data := rfl
@[simp] theorem withProgram_src (s : State) (p : List HostLine) : (s.withProgram p).src = s.src := rfl
@[simp] theorem withProgram_dst (s : State) (p : List HostLine) : (s.withProgram p).dst = s.dst := rfl
@[simp] theorem withProgram_cnt (s : State) (p : List HostLine) : (s.withProgram p).cnt = s.cnt := rfl
@[simp] theorem withProgram_aux (s : State) (p : List HostLine) : (s.withProgram p).aux = s.aux := rfl
@[simp] theorem withProgram_rlen (s : State) (p : List HostLine) : (s.withProgram p).rlen = s.rlen := rfl
@[simp] theorem withProgram_buf (s : State) (p : List HostLine) : (s.withProgram p).buf = s.buf := rfl
@[simp] theorem withProgram_inputs (s : State) (p : List HostLine) : (s.withProgram p).inputs = s.inputs ++ (programAccesses p).map .access := rfl
@[simp] theorem withProgram_replies (s : State) (p : List HostLine) : (s.withProgram p).replies = s.replies := rfl

end withProgram

section resetInput

@[simp] theorem resetInput_bufSize (s : State) : (resetInput s).bufSize = s.bufSize := rfl
@[simp] theorem resetInput_cfg (s : State) : (resetInput s).cfg = (State.resetOf s.bufSize).cfg := rfl
@[simp] theorem resetInput_crc (s : State) : (resetInput s).crc = (State.resetOf s.bufSize).crc := rfl
@[simp] theorem resetInput_len (s : State) : (resetInput s).len = (State.resetOf s.bufSize).len := rfl
@[simp] theorem resetInput_err (s : State) : (resetInput s).err = (State.resetOf s.bufSize).err := rfl
@[simp] theorem resetInput_crcOk (s : State) : (resetInput s).crcOk = (State.resetOf s.bufSize).crcOk := rfl
@[simp] theorem resetInput_fres (s : State) : (resetInput s).fres = (State.resetOf s.bufSize).fres := rfl
@[simp] theorem resetInput_exc (s : State) : (resetInput s).exc = (State.resetOf s.bufSize).exc := rfl
@[simp] theorem resetInput_data (s : State) : (resetInput s).data = (State.resetOf s.bufSize).data := rfl
@[simp] theorem resetInput_src (s : State) : (resetInput s).src = (State.resetOf s.bufSize).src := rfl
@[simp] theorem resetInput_dst (s : State) : (resetInput s).dst = (State.resetOf s.bufSize).dst := rfl
@[simp] theorem resetInput_cnt (s : State) : (resetInput s).cnt = (State.resetOf s.bufSize).cnt := rfl
@[simp] theorem resetInput_aux (s : State) : (resetInput s).aux = (State.resetOf s.bufSize).aux := rfl
@[simp] theorem resetInput_rlen (s : State) : (resetInput s).rlen = (State.resetOf s.bufSize).rlen := rfl
@[simp] theorem resetInput_buf (s : State) : (resetInput s).buf = (State.resetOf s.bufSize).buf := rfl
@[simp] theorem resetInput_inputs (s : State) : (resetInput s).inputs = s.inputs := rfl
@[simp] theorem resetInput_replies (s : State) : (resetInput s).replies = s.replies := rfl

end resetInput

end Sys2Proof.Machine
end

