-- ==== Sys2Proof/Laws/Exec.lean ====
section
/-! SUPPORT. What a command can do, said once: its checks, the read of its source range, and its effect on the bytes read (`exec_eq`). Proofs about exec cite it and the inversion `exec_cases` in place of unfolding the meanings. -/

namespace Sys2Proof.Machine

/-- The effect of a completed frame comparison on the bytes of the frame: the body's CRC and whether the trailer matches it. -/
def trailerVerdict (frame : List Byte) : Half × Bool :=
  let c := crc16 (frame.take (frame.length - 2))
  (c, trailerMatches c (frame.getD (frame.length - 2) 0#8) (frame.getD (frame.length - 1) 0#8))

/-- The next state of a command that completes, from the bytes of its source range (`readRange`). -/
def commandEffect : Instr → List Byte → State → State
  | .crcinit, _, s => { s with crc := 0xFFFF, err := .none }
  | .crcbyte b, _, s => { s with crc := crcStep s.crc b, err := .none }
  | .crcbuf, bytes, s => { s with crc := crc bytes s.crc, err := .none }
  | .crcapp, bytes, s =>
    { s with
      buf := s.buf.writeAll s.len.toNat [crcLo (crc16 bytes), crcHi (crc16 bytes)]
      len := BitVec.ofNat 16 (s.len.toNat + 2), crc := crc16 bytes, err := .none }
  | .crcver, bytes, s =>
    if s.len.toNat < 2 then { s with crcOk := false, err := .none }
    else { s with crcOk := (trailerVerdict bytes).2, crc := (trailerVerdict bytes).1, err := .none }
  | .frmchk e, bytes, s =>
    if s.len.toNat < 5 then { s with crcOk := false, fres := .short, exc := 0, err := .none }
    else if (trailerVerdict bytes).2 then
      if bytes.getD 1 0#8 = e ||| 0x80#8 then
        { s with crcOk := true, fres := .exc, exc := bytes.getD 2 0#8, crc := (trailerVerdict bytes).1, err := .none }
      else { s with crcOk := true, fres := .ok, exc := 0, crc := (trailerVerdict bytes).1, err := .none }
    else { s with crcOk := false, fres := .crc, exc := 0, crc := (trailerVerdict bytes).1, err := .none }
  | .dec16, bytes, s => { s with data := (decodeScalar 1 bytes s.ws s.mws).setWidth 64, err := .none }
  | .dec32, bytes, s => { s with data := (decodeScalar 2 bytes s.ws s.mws).setWidth 64, err := .none }
  | .dec64, bytes, s => { s with data := (decodeScalar 4 bytes s.ws s.mws).setWidth 64, err := .none }
  | .enc16, _, s => encEffect 1 s
  | .enc32, _, s => encEffect 2 s
  | .enc64, _, s => encEffect 4 s
  | .perm16, bytes, s => store (permArray 1 s.cnt.toNat bytes s.ws s.mws) (2 * 1 * s.cnt.toNat) s
  | .perm32, bytes, s => store (permArray 2 s.cnt.toNat bytes s.ws s.mws) (2 * 2 * s.cnt.toNat) s
  | .perm64, bytes, s => store (permArray 4 s.cnt.toNat bytes s.ws s.mws) (2 * 4 * s.cnt.toNat) s
  | .strenc fixed, bytes, s =>
    store (strEncode bytes (s.stringLength fixed) s.sws)
      (s.stringLength fixed + s.stringLength fixed % 2) s
  | .strdec fixed, bytes, s =>
    store (strDecode bytes (s.stringLength fixed) s.sws) (s.stringLength fixed) s
  | .bpack, bytes, s => store (pack bytes) (packedLength s.cnt.toNat) s
  | .bunpack, bytes, s => store (unpack bytes s.cnt.toNat) s.cnt.toNat s
where
  /-- The end of a buffer-to-buffer command, with ERR = NONE. -/
  store (out : List Byte) (n : Nat) (s : State) : State :=
    { s with buf := s.buf.writeAll s.dst.toNat out, rlen := BitVec.ofNat 16 n, err := .none }
  /-- The effect of an ENC command. -/
  encEffect (n : Nat) (s : State) : State :=
    { s with
      buf := s.buf.writeAll s.dst.toNat (encodeScalar n (s.data.setWidth (16 * n)) s.ws s.mws)
      err := .none }

@[simp] theorem commandEffect_err (i : Instr) (bytes : List Byte) (s : State) :
    (commandEffect i bytes s).err = .none := by
  cases i <;> simp only [commandEffect, commandEffect.store, commandEffect.encEffect] <;>
    repeat' split
  all_goals rfl

/-- The comparison CRCVER and FRMCHK share is one read of the frame. -/
theorem checkTrailer_eq {s : State} (k : Half → Bool → Result) (h : 2 ≤ s.len.toNat) :
    checkTrailer s k =
      reading (memRead s 0 s.len.toNat) fun frame =>
        k (trailerVerdict frame).1 (trailerVerdict frame).2 := by
  obtain ⟨n, hn⟩ : ∃ n, s.len.toNat = n + 2 := ⟨s.len.toNat - 2, by omega⟩
  rw [checkTrailer, hn, show n + 2 - 2 = n by omega, show n + 2 - 1 = n + 1 by omega]
  rcases written_or_firstUnwritten s.buf 0 (n + 2) with hw | ⟨p, hp⟩
  · obtain ⟨frame, hl, hh⟩ := holds_of_written hw
    obtain ⟨body, lo, hi, rfl, hb⟩ : ∃ body lo hi, frame = body ++ [lo, hi] ∧ body.length = n := by
      refine ⟨frame.take n, frame[n], frame[n + 1], ?_, by simp; omega⟩
      apply List.ext_getElem?
      intro i
      rw [List.getElem?_append]
      simp only [List.length_take, hl, List.getElem?_take]
      split
      · rw [if_pos (by omega)]
      · rcases Nat.lt_or_ge i (n + 2) with hi | hi
        · rcases (by omega : i = n ∨ i = n + 1) with rfl | rfl
          · simp
          · simp
        · rw [List.getElem?_eq_none (by omega), List.getElem?_eq_none (by simp; omega)]
    rw [← hl, reading_memRead_of_holds _ hh]
    rw [holds_append, holds_cons, holds_cons] at hh
    obtain ⟨h0, h1, h2, -⟩ := hh
    subst hb
    rw [reading_memRead_of_holds _ h0]
    simp only [Nat.zero_add] at h1 h2
    rw [bufRead_eq_ok.mpr h1, reading_ok, bufRead_eq_ok.mpr h2, reading_ok]
    simp [trailerVerdict]
  · rw [reading_memRead_of_firstUnwritten _ hp]
    obtain ⟨-, h2, h3, h4⟩ := hp
    rcases Nat.lt_or_ge p n with hlt | hge
    · exact reading_memRead_of_firstUnwritten _ ⟨Nat.zero_le _, by omega, h3, h4⟩
    · obtain ⟨body, hl, hh⟩ := holds_of_written (m := s.buf) (a := 0) (n := n)
        fun q _ hq => h4 q (Nat.zero_le _) (by omega)
      rw [← hl, reading_memRead_of_holds _ hh, hl]
      rcases (by omega : p = n ∨ p = n + 1) with rfl | rfl
      · rw [bufRead_eq_error.mpr ⟨h3, rfl⟩, reading_error]
      · obtain ⟨b, hb⟩ := Option.isSome_iff_exists.mp (h4 n (Nat.zero_le _) (by omega))
        rw [bufRead_eq_ok.mpr hb, reading_ok, bufRead_eq_error.mpr ⟨h3, rfl⟩, reading_error]

theorem commandError_eq_none {i : Instr} {s : State} :
    commandError i s = .none ↔ rangesFit i s = true ∧ argumentsFit i s = true := by
  unfold commandError
  cases rangesFit i s <;> cases argumentsFit i s <;> simp

theorem commandError_of_ranges {i : Instr} {s : State} (h : rangesFit i s = false) :
    commandError i s = .range := by simp [commandError, h]

theorem commandError_of_arguments {i : Instr} {s : State} (h : rangesFit i s = true)
    (h' : argumentsFit i s = false) : commandError i s = .arg := by simp [commandError, h, h']

/-- A command with one checked range and no argument check. -/
theorem requireRange_eq {i : Instr} {s : State} {a n : Nat} (k : Result)
    (hr : checkedRanges i s = [(a, n)]) (ha : argumentsFit i s = true) :
    requireRange a n s k =
      if commandError i s = .none then k else .next { s with err := commandError i s } := by
  by_cases h : a + n ≤ s.bufSize.val
  · rw [requireRange_fits _ h, if_pos (commandError_eq_none.mpr ⟨by simp [rangesFit, hr, h], ha⟩)]
  · rw [requireRange_error _ (by omega), commandError_of_ranges (by simp [rangesFit, hr]; omega)]
    rfl

/-- A command with two checked ranges and no argument check. -/
theorem requireRanges_eq {i : Instr} {s : State} {a n b m : Nat} (k : Result)
    (hr : checkedRanges i s = [(a, n), (b, m)]) (ha : argumentsFit i s = true) :
    requireRange a n s (requireRange b m s k) =
      if commandError i s = .none then k else .next { s with err := commandError i s } := by
  by_cases h : a + n ≤ s.bufSize.val
  · by_cases h' : b + m ≤ s.bufSize.val
    · rw [requireRange_fits _ h, requireRange_fits _ h',
        if_pos (commandError_eq_none.mpr ⟨by simp [rangesFit, hr, h, h'], ha⟩)]
    · rw [requireRange_fits _ h, requireRange_error _ (by omega),
        commandError_of_ranges (by simp [rangesFit, hr]; omega)]
      rfl
  · rw [requireRange_error _ (by omega), commandError_of_ranges (by simp [rangesFit, hr]; omega)]
    rfl

/-- What a command does: its range checks, then its argument checks, then the read of its source range, then its effect. -/
theorem exec_eq (i : Instr) (s : State) :
    exec i s =
      if commandError i s = .none then
        reading (memRead s (readRange i s).1 (readRange i s).2) fun bytes =>
          .next (commandEffect i bytes s)
      else .next { s with err := commandError i s } := by
  cases i with
  | crcinit => rfl
  | crcbyte b => rfl
  | crcbuf => exact requireRange_eq (i := .crcbuf) _ rfl rfl
  | crcapp => exact requireRange_eq (i := .crcapp) _ rfl rfl
  | crcver =>
    refine (requireRange_eq (i := .crcver) _ rfl rfl).trans ?_
    congr 1
    simp only [readRange, commandEffect]
    by_cases h : s.len.toNat < 2
    · simp [h, memRead]
    · simp only [h, if_false]
      rw [checkTrailer_eq _ (by omega)]
      rfl
  | frmchk e =>
    refine (requireRange_eq (i := .frmchk e) _ rfl rfl).trans ?_
    congr 1
    simp only [readRange, commandEffect]
    by_cases h : s.len.toNat < 5
    · simp [h, memRead, State.withVerdict]
    · simp only [h, if_false]
      rw [checkTrailer_eq _ (by omega)]
      rcases written_or_firstUnwritten s.buf 0 s.len.toNat with hw | ⟨p, hp⟩
      · obtain ⟨frame, hl, hh⟩ := holds_of_written hw
        rw [← hl, reading_memRead_of_holds _ hh, reading_memRead_of_holds _ hh]
        have h1 := hh 1 (frame.getD 1 0#8) (by rw [List.getD_eq_getElem?_getD, List.getElem?_eq_getElem (by omega)]; rfl)
        have h2 := hh 2 (frame.getD 2 0#8) (by rw [List.getD_eq_getElem?_getD, List.getElem?_eq_getElem (by omega)]; rfl)
        simp only [Nat.zero_add] at h1 h2
        rw [bufRead_eq_ok.mpr h1, bufRead_eq_ok.mpr h2]
        simp only [reading_ok, complete_eq, State.withVerdict]
        split <;> [split; skip] <;> rfl
      · rw [reading_memRead_of_firstUnwritten _ hp, reading_memRead_of_firstUnwritten _ hp]
  | dec16 => exact requireRange_eq (i := .dec16) _ rfl rfl
  | dec32 => exact requireRange_eq (i := .dec32) _ rfl rfl
  | dec64 => exact requireRange_eq (i := .dec64) _ rfl rfl
  | enc16 => exact requireRange_eq (i := .enc16) _ rfl rfl
  | enc32 => exact requireRange_eq (i := .enc32) _ rfl rfl
  | enc64 => exact requireRange_eq (i := .enc64) _ rfl rfl
  | perm16 => exact requireRanges_eq (i := .perm16) _ rfl rfl
  | perm32 => exact requireRanges_eq (i := .perm32) _ rfl rfl
  | perm64 => exact requireRanges_eq (i := .perm64) _ rfl rfl
  | strenc fixed => cases fixed <;> exact requireRanges_eq (i := .strenc _) _ rfl rfl
  | strdec fixed =>
    have hr : checkedRanges (.strdec fixed) s =
        [(s.src.toNat, s.cnt.toNat), (s.dst.toNat, s.stringLength fixed)] := by
      cases fixed <;> rfl
    have ha : argumentsFit (.strdec fixed) s =
        (decide (s.cnt.toNat % 2 = 0) && decide (s.stringLength fixed ≤ s.cnt.toNat)) := by
      cases fixed <;> rfl
    by_cases h : s.src.toNat + s.cnt.toNat ≤ s.bufSize.val ∧
        s.dst.toNat + s.stringLength fixed ≤ s.bufSize.val
    · have hf : rangesFit (.strdec fixed) s = true := by simp [rangesFit, hr, h.1, h.2]
      change requireRange _ _ _ (requireRange _ _ _ _) = _
      rw [requireRange_fits _ h.1, requireRange_fits _ h.2]
      by_cases h1 : s.cnt.toNat % 2 = 0
      · by_cases h2 : s.stringLength fixed ≤ s.cnt.toNat
        · rw [if_pos (commandError_eq_none.mpr ⟨hf, by simp [ha, h1, h2]⟩)]
          simp only [h1, h2, decide_true]
          rfl
        · rw [commandError_of_arguments hf (by simp [ha, h2])]
          simp only [h1, h2, decide_true, decide_false]
          rfl
      · rw [commandError_of_arguments hf (by simp [ha, h1])]
        simp only [h1, decide_false]
        rfl
    · have hf : rangesFit (.strdec fixed) s = false := by
        simp [rangesFit, hr]; omega
      rw [commandError_of_ranges hf]
      change requireRange _ _ _ (requireRange _ _ _ _) = _
      by_cases h1 : s.src.toNat + s.cnt.toNat ≤ s.bufSize.val
      · rw [requireRange_fits _ h1, requireRange_error _ (by omega)]; rfl
      · rw [requireRange_error _ (by omega)]; rfl
  | bpack => exact requireRanges_eq (i := .bpack) _ rfl rfl
  | bunpack => exact requireRanges_eq (i := .bunpack) _ rfl rfl

/-- A command whose checks pass, on the bytes its source range holds. -/
theorem exec_of_holds {i : Instr} {s : State} {bytes : List Byte}
    (h : commandError i s = .none) (hl : bytes.length = (readRange i s).2)
    (hh : Holds s.buf (readRange i s).1 bytes) :
    exec i s = .next (commandEffect i bytes s) := by
  rw [exec_eq, if_pos h, ← hl, reading_memRead_of_holds _ hh]

/-- A command that answers next, taken apart: it reported an error and changed ERR alone, or it read its source range and had its effect. -/
theorem exec_cases {i : Instr} {s t : State} (h : exec i s = .next t) :
    (commandError i s ≠ .none ∧ t = { s with err := commandError i s }) ∨
      (commandError i s = .none ∧ ∃ bytes, bytes.length = (readRange i s).2 ∧
        Holds s.buf (readRange i s).1 bytes ∧ t = commandEffect i bytes s) := by
  rw [exec_eq] at h
  split at h
  · next hc =>
    rcases reading_memRead_cases h with ⟨bytes, hl, hh, ht⟩ | ⟨p, -, hp⟩
    · exact .inr ⟨hc, bytes, hl, hh, by cases ht; rfl⟩
    · cases hp
  · next hc => exact .inl ⟨hc, by cases h; rfl⟩

end Sys2Proof.Machine
end

