-- ==== Sys2Proof/Laws/PerInstr.lean ====
section
/-! SUPPORT. The family RoundTrip: of each command, that its word decodes to it and selects its row of the table of rule R95. -/

namespace Sys2Proof.Laws.RoundTrip

/-- The word of a command decodes to it, and `w & mask == match` holds of its row (rule R95). -/
def Statement (i : Instr) : Prop :=
  decode (encode i) = .ok i ∧ encode i &&& i.row.mask = i.row.pattern

theorem crcinit : Statement .crcinit := by unfold Statement; decide
theorem crcbyte (imm : Byte) : Statement (.crcbyte imm) := by revert imm; unfold Statement; decide +kernel
theorem crcbuf : Statement .crcbuf := by unfold Statement; decide
theorem crcapp : Statement .crcapp := by unfold Statement; decide
theorem crcver : Statement .crcver := by unfold Statement; decide
theorem frmchk (imm : Byte) : Statement (.frmchk imm) := by revert imm; unfold Statement; decide +kernel
theorem dec16 : Statement .dec16 := by unfold Statement; decide
theorem dec32 : Statement .dec32 := by unfold Statement; decide
theorem dec64 : Statement .dec64 := by unfold Statement; decide
theorem enc16 : Statement .enc16 := by unfold Statement; decide
theorem enc32 : Statement .enc32 := by unfold Statement; decide
theorem enc64 : Statement .enc64 := by unfold Statement; decide
theorem perm16 : Statement .perm16 := by unfold Statement; decide
theorem perm32 : Statement .perm32 := by unfold Statement; decide
theorem perm64 : Statement .perm64 := by unfold Statement; decide
theorem strenc (fixed : Bool) : Statement (.strenc fixed) := by revert fixed; unfold Statement; decide
theorem strdec (fixed : Bool) : Statement (.strdec fixed) := by revert fixed; unfold Statement; decide
theorem bpack : Statement .bpack := by unfold Statement; decide
theorem bunpack : Statement .bunpack := by unfold Statement; decide

end Sys2Proof.Laws.RoundTrip
end

