-- ==== Sys2Proof/Laws/Step.lean ====
section
/-! SUPPORT. The host port and the step: where an offset leads, what a command word does, and everything a step can do, said once. -/

namespace Sys2Proof.Machine

@[simp] theorem regAt_regOffset (r : Reg) : regAt (regOffset r) = some r := by cases r <;> rfl

theorem regAt_isSome (off : Offset) :
    (∃ r, regAt off = some r) ↔ off.toNat < 0x30 ∧ off.toNat % 4 = 0 := by
  unfold regAt
  split <;> simp_all
  omega

/-- The offset of buffer position n. -/
theorem windowAt_offset {size n : Nat} (h : n < size) (hs : size ≤ 65535) :
    windowAt size (BitVec.ofNat 17 (0x10000 + n)) = some n := by
  unfold windowAt windowBase
  have ho : (BitVec.ofNat 17 (0x10000 + n)).toNat = 0x10000 + n := by
    rw [BitVec.toNat_ofNat]; omega
  rw [ho, if_pos (by omega), Nat.add_sub_cancel_left]

theorem windowAt_isSome (size : Nat) (off : Offset) :
    (∃ i, windowAt size off = some i) ↔
      0x10000 ≤ off.toNat ∧ off.toNat < 0x10000 + size := by
  unfold windowAt windowBase
  split
  · exact ⟨fun _ => ‹_›, fun _ => ⟨_, rfl⟩⟩
  · exact ⟨fun ⟨_, h⟩ => (by cases h), fun h => absurd h ‹_›⟩

theorem windowAt_lt {size i : Nat} {off : Offset} (h : windowAt size off = some i) : i < size := by
  unfold windowAt at h
  split at h
  · rename_i hx; rw [← Option.some.inj h]; exact Nat.sub_lt_left_of_lt_add hx.1 hx.2
  · cases h

theorem execWord_of_decode {w : Word} {i : Instr} (h : decode w = .ok i) (s : State) :
    execWord w s = exec i s := by simp [execWord, h]

theorem execWord_of_error {w : Word} {e : Reject} (h : decode w = .error e) (s : State) :
    execWord w s = .next { s with err := .illegal } := by simp [execWord, h, cmdError]

/-- A word with an operation whose IMM8 its decoding rejects is ILLEGAL. -/
theorem illegalUnless {op : Byte} {legal : Byte → Prop}
    (h : ∀ imm, ¬ legal imm → ∃ e, decodeOp op imm = .error e) : IllegalUnless op legal := by
  intro w s ho hl
  by_cases hr : w.extractLsb' 16 16 = 0#16
  · obtain ⟨e, he⟩ := h _ (hl.resolve_left (by simp [hr]))
    exact execWord_of_error (e := e) (by unfold decode; rw [if_neg (by simp [hr]), ho, he]) s
  · exact execWord_of_error (e := .reservedBits) (by unfold decode; rw [if_pos hr]) s

theorem wf_iff (s : State) : s.wf = true ↔ s.buf.wf = true ∧
    s.buf.within s.bufSize.val = true ∧ s.rlen.toNat ≤ s.bufSize.val ∧
    (s.fres = .exc ∨ s.exc = 0#8) := by simp [State.wf, and_assoc]

/-- A write of a register other than CMD, as a host program line makes it. -/
theorem access_writeReg {r : Reg} (h : r ≠ .cmd) (v : Word) (s : State) :
    access (writeReg r v) s = .next ((s.regStore v r).reply .accepted) := by
  simp only [writeReg, access, hostWrite, regAt_regOffset]
  cases r <;> first | rfl | exact absurd rfl h

/-- Everything a step can do when it answers a next state: a property of its two states holds if it holds of waiting, of reset, of an answer given (a read, or a rejected access), of a register store, of a buffer store, of a command that answers next, and of an illegal word. -/
theorem step_property (P : State → State → Prop) {s t : State} (h : step s = .next t)
    (waits : P s s)
    (resets : ∀ rest, P s (resetInput { s with inputs := rest }))
    (answers : ∀ rest r, P s ({ s with inputs := rest }.reply r))
    (stores : ∀ rest v r, P s (({ s with inputs := rest }.regStore v r).reply .accepted))
    (bytes : ∀ rest i b, i < s.bufSize.val →
      P s ({ s with inputs := rest, buf := s.buf.write i b }.reply .accepted))
    (commands : ∀ rest i u, exec i { s with inputs := rest } = .next u →
      P s (u.reply .accepted))
    (illegal : ∀ rest, P s ({ s with inputs := rest, err := .illegal }.reply .accepted)) :
    P s t := by
  unfold step at h
  split at h
  · cases h; exact waits
  · next e rest _ =>
    cases e with
    | reset => cases h; exact resets rest
    | access a =>
      simp only [takeInput] at h
      cases a with
      | read w off =>
        simp only [access] at h
        cases hr : hostRead w off { s with inputs := rest } with
        | ok r => rw [hr] at h; cases h; exact answers rest r
        | error f => rw [hr] at h; cases h
      | write off v =>
        simp only [access, hostWrite] at h
        cases v with
        | b16 v => cases h; exact answers _ _
        | b8 b =>
          simp only [] at h
          split at h
          · next i hi => cases h; exact bytes rest i b (windowAt_lt hi)
          · cases h; exact answers _ _
        | b32 w =>
          simp only [] at h
          split at h
          · next r hr =>
            cases r
            case cmd =>
              simp only [regWrite, execWord] at h
              split at h
              · next i hi =>
                cases hu : exec i { s with inputs := rest } with
                | next u => rw [hu] at h; cases h; exact commands rest i u hu
                | fault f => rw [hu] at h; cases h
                | refused f => rw [hu] at h; cases h
              · cases h; exact illegal rest
            all_goals (cases h; exact stores rest w _)
          · cases h; exact answers _ _

end Sys2Proof.Machine
end

