-- ==== Sys2Proof/Laws/Values.lean ====
section
/-! SUPPORT. The sizes of the byte sequences the commands compute, and small facts about the swaps and the fold of the CRC. -/

namespace Sys2Proof.Machine

@[simp] theorem length_swapPairs : ∀ bytes : List Byte, (swapPairs bytes).length = bytes.length
  | [] => rfl
  | [_] => rfl
  | _ :: _ :: rest => by simp [swapPairs, length_swapPairs rest]

@[simp] theorem length_reverseWords : ∀ bytes : List Byte,
    (reverseWords bytes).length = bytes.length
  | [] => rfl
  | [_] => rfl
  | _ :: _ :: rest => by simp [reverseWords, length_reverseWords rest]

/-- Swapping the bytes of each pair twice gives the bytes back. -/
@[simp] theorem swapPairs_swapPairs : ∀ bytes : List Byte, swapPairs (swapPairs bytes) = bytes
  | [] => rfl
  | [_] => rfl
  | _ :: _ :: rest => by simp [swapPairs, swapPairs_swapPairs rest]

/-- Byte i of a swapped even sequence is its neighbour in the pair. -/
theorem getElem?_swapPairs : ∀ (bytes : List Byte) (i : Nat), bytes.length % 2 = 0 →
    (swapPairs bytes)[i]? = bytes[if i % 2 = 0 then i + 1 else i - 1]?
  | [], i, _ => by simp [swapPairs]
  | [_], i, h => by simp at h
  | a :: b :: rest, i, h => by
    match i with
    | 0 => rfl
    | 1 => rfl
    | i + 2 =>
      have ih := getElem?_swapPairs rest i (by simp at h; omega)
      simp only [swapPairs, List.getElem?_cons_succ, ih]
      by_cases hi : i % 2 = 0
      · rw [if_pos hi, if_pos (by omega)]; simp
      · rw [if_neg hi, if_neg (by omega), show i + 2 - 1 = (i - 1) + 2 by omega]; simp

@[simp] theorem length_perm (n : Nat) (bytes : List Byte) (ws mws : Bool) :
    (perm n bytes ws mws).length = bytes.length := by
  unfold perm; simp only []; split <;> split <;> simp

@[simp] theorem length_bigEndian (n : Nat) (v : BitVec (16 * n)) :
    (bigEndian n v).length = 2 * n := by simp [bigEndian]

@[simp] theorem length_encodeScalar (n : Nat) (v : BitVec (16 * n)) (ws mws : Bool) :
    (encodeScalar n v ws mws).length = 2 * n := by simp [encodeScalar]

theorem length_permArray {n m : Nat} {bytes : List Byte} (ws mws : Bool)
    (h : bytes.length = 2 * n * m) : (permArray n m bytes ws mws).length = 2 * n * m := by
  induction m generalizing bytes with
  | zero => simp [permArray]
  | succ m ih =>
    rw [permArray, List.length_append, length_perm, ih]
    · simp [h]; rw [Nat.mul_succ]; omega
    · simp [h]; rw [Nat.mul_succ]; omega

@[simp] theorem length_resize (bytes : List Byte) (len : Nat) :
    (resize bytes len).length = len := by unfold resize; split <;> simp <;> omega

@[simp] theorem length_strEncode (bytes : List Byte) (len : Nat) (sws : Bool) :
    (strEncode bytes len sws).length = len + len % 2 := by
  unfold strEncode; simp only []
  (repeat' split) <;> simp <;> omega

theorem length_strDecode {bytes : List Byte} {len : Nat} (sws : Bool) (h : len ≤ bytes.length) :
    (strDecode bytes len sws).length = len := by unfold strDecode; split <;> simp [h]

@[simp] theorem length_pack (bits : List Byte) :
    (pack bits).length = packedLength bits.length := by simp [pack]

@[simp] theorem length_unpack (packed : List Byte) (m : Nat) :
    (unpack packed m).length = m := by simp [unpack]

/-- The CRC of a concatenation continues from the CRC of its first part. -/
theorem crc_append (a b : List Byte) (init : Half) : crc (a ++ b) init = crc b (crc a init) := by
  simp [crc]

/-- A frame of at least two bytes is a body and its two last bytes. -/
theorem exists_body {frame : List Byte} (h : 2 ≤ frame.length) :
    ∃ body lo hi, frame = body ++ [lo, hi] := by
  refine ⟨frame.take (frame.length - 2), frame[frame.length - 2], frame[frame.length - 1], ?_⟩
  have hd : frame.drop (frame.length - 2) =
      [frame[frame.length - 2], frame[frame.length - 1]] := by
    rw [List.drop_eq_getElem_cons (by omega), List.drop_eq_getElem_cons (by omega)]
    simp only [List.cons.injEq]
    refine ⟨trivial, by congr 1; omega, ?_⟩
    simp; omega
  rw [← hd, List.take_append_drop]

end Sys2Proof.Machine
end

