-- ==== Sys2Proof/Tests/Slice0.lean ====
section
/-! SUPPORT. The model's own tests. The expected results come from the spec: the words of rule R95, the vectors of 95_test_vectors.md, the examples of the instructions' rules. Then one witness for each statement that has hypotheses. -/

namespace Sys2Proof.Tests

open Sys2Proof Sys2Proof.Machine

set_option Elab.async false

/- ==== Helpers ==== -/

/-- The outcome is a next state with this property. -/
def ends (r : Result) (p : State → Bool) : Bool :=
  match r with
  | .next t => p t
  | .fault _ => false
  | .refused _ => false

/-- The outcome is the fault of reading this unwritten position. -/
def faultsAt (r : Result) (position : Nat) : Bool :=
  match r with
  | .fault (.unwritten p) => p == position
  | .next _ => false
  | .refused _ => false

theorem exists_next {r : Result} {p : State → Bool} (h : ends r p = true) :
    ∃ t, r = .next t ∧ p t = true := by
  cases r with
  | next t => exact ⟨t, rfl, h⟩
  | fault f => cases h
  | refused f => cases h

/-- The reset state with bytes written at a position. -/
def loaded (a : Nat) (bytes : List Byte) : State :=
  { State.reset with buf := Memory.writeAll [] a bytes }

theorem holds_loaded (a : Nat) (bytes : List Byte) : Holds (loaded a bytes).buf a bytes :=
  (stores_writeAll [] a bytes).1

/-- The n bytes from position a on, as the host would read them. -/
def bytesAt (s : State) (a n : Nat) : List (Option Byte) :=
  (List.range n).map fun k => s.buf.read (a + k)

/-- SRC, DST, CNT, AUX written as OPS does (rule R98). -/
def operands (src dst cnt aux : Half) (s : State) : State :=
  { s with src := src, dst := dst, cnt := cnt, aux := aux }

/-- The frame of V-FC-1 that carries exception 0x02, checked as a frame of five bytes. -/
def exceptionFrame : State := { loaded 0 [0x01, 0x83, 0x02, 0xC0, 0xF1] with len := 5 }

/- ==== Well-formedness: each check refuses an ill-formed term ==== -/

theorem test_wf_crcbyte_word : (CmdWord.ofWord 0x00006402).wellFormed = true := by decide
theorem test_wf_rsv : (CmdWord.ofWord 0x00010001).wellFormed = false := by decide
theorem test_wf_rsv_top : (CmdWord.ofWord 0x80000005).wellFormed = false := by decide
theorem test_wf_unassigned : (CmdWord.ofWord 0x00000013).wellFormed = false := by decide
theorem test_wf_imm_none : (CmdWord.ofWord 0x00008004).wellFormed = false := by decide
theorem test_wf_imm_flags : (CmdWord.ofWord 0x00000220).wellFormed = false := by decide
theorem test_wf_load_empty : (HostLine.load 0 []).wellFormed = false := by decide
theorem test_wf_load_past_end : (HostLine.load 0xFFFF [1, 2]).wellFormed = false := by decide
theorem test_wf_load_last : (HostLine.load 0xFFFF [1]).wellFormed = true := by decide

/- ==== Decoding: rule R95's patterns, bit 31 first ==== -/

theorem test_decode_crcinit : decode 0b00000000000000000000000000000001 = .ok .crcinit := by decide
theorem test_decode_crcbyte : decode 0b00000000000000001010010100000010 = .ok (.crcbyte 0xA5) := by decide
theorem test_decode_crcbuf : decode 0b00000000000000000000000000000011 = .ok .crcbuf := by decide
theorem test_decode_crcapp : decode 0b00000000000000000000000000000100 = .ok .crcapp := by decide
theorem test_decode_crcver : decode 0b00000000000000000000000000000101 = .ok .crcver := by decide
theorem test_decode_frmchk : decode 0b00000000000000000001000000000110 = .ok (.frmchk 0x10) := by decide
theorem test_decode_dec16 : decode 0b00000000000000000000000000010000 = .ok .dec16 := by decide
theorem test_decode_dec32 : decode 0b00000000000000000000000000010001 = .ok .dec32 := by decide
theorem test_decode_dec64 : decode 0b00000000000000000000000000010010 = .ok .dec64 := by decide
theorem test_decode_enc16 : decode 0b00000000000000000000000000010100 = .ok .enc16 := by decide
theorem test_decode_enc32 : decode 0b00000000000000000000000000010101 = .ok .enc32 := by decide
theorem test_decode_enc64 : decode 0b00000000000000000000000000010110 = .ok .enc64 := by decide
theorem test_decode_perm16 : decode 0b00000000000000000000000000011000 = .ok .perm16 := by decide
theorem test_decode_perm32 : decode 0b00000000000000000000000000011001 = .ok .perm32 := by decide
theorem test_decode_perm64 : decode 0b00000000000000000000000000011010 = .ok .perm64 := by decide
theorem test_decode_strenc : decode 0b00000000000000000000000000100000 = .ok (.strenc false) := by decide
theorem test_decode_strenc_f : decode 0b00000000000000000000000100100000 = .ok (.strenc true) := by decide
theorem test_decode_strdec : decode 0b00000000000000000000000000100001 = .ok (.strdec false) := by decide
theorem test_decode_strdec_f : decode 0b00000000000000000000000100100001 = .ok (.strdec true) := by decide
theorem test_decode_bpack : decode 0b00000000000000000000000000110000 = .ok .bpack := by decide
theorem test_decode_bunpack : decode 0b00000000000000000000000000110001 = .ok .bunpack := by decide

/- V-ERR-1: illegal words, each with its reason. -/

theorem test_illegal_zero : decode 0x00000000 = .error (.unassignedOp 0x00) := by decide
theorem test_illegal_width_three : decode 0x00000017 = .error (.unassignedOp 0x17) := by decide
theorem test_illegal_rsv_first : decode 0x800000FF = .error .reservedBits := by decide
theorem test_illegal_imm_none : decode 0x00000101 = .error .immNotZero := by decide
theorem test_illegal_imm_flags : decode 0x0000FF21 = .error .flagBitsNotZero := by decide
theorem test_decodeTableWord : decodeTableWord 32 0x00000121 = some (.strdec true) := by decide
theorem test_decodeTableWord_too_wide : decodeTableWord 32 0x100000001 = none := by decide

/-- No two rows of the table match the same word (rule R95). -/
theorem test_rows_disjoint : opcodeTable.Pairwise fun r r' =>
    (r.pattern ^^^ r'.pattern) &&& (r.mask &&& r'.mask) ≠ 0#32 := by decide +kernel

/- ==== The CRC family: V-CRC-1 to V-CRC-5 ==== -/

theorem test_crcinit : ends (exec .crcinit { State.reset with crc := 0x1234 })
    (fun t => t.crc == 0xFFFF && t.err == .none) = true := by decide +kernel
theorem test_crcbyte : ends (exec (.crcbyte 0x01) State.reset)
    (fun t => t.crc == 0x807E && t.err == .none) = true := by decide +kernel
theorem test_crcbyte_chain : ends (exec (.crcbyte 0x64) { State.reset with crc := 0xF020 })
    (fun t => t.crc == 0x33F0) = true := by decide +kernel
theorem test_crcbuf : ends (exec .crcbuf { loaded 0 [0x01, 0x03, 0x00, 0x64, 0x00, 0x01] with cnt := 6 })
    (fun t => t.crc == 0xD5C5 && t.err == .none) = true := by decide +kernel
theorem test_crcbuf_zero_count_past_end : ends
    (exec .crcbuf { State.reset with crc := 0x1234, src := 257 })
    (fun t => t.crc == 0x1234 && t.err == .range) = true := by decide +kernel
theorem test_crcapp : ends (exec .crcapp { loaded 0 [0x01, 0x03, 0x00, 0x64, 0x00, 0x01] with len := 6 })
    (fun t => t.len == 8 && t.crc == 0xD5C5 && bytesAt t 6 3 == [some 0xC5, some 0xD5, none]) =
      true := by decide +kernel
theorem test_crcapp_no_wrap : ends (exec .crcapp { State.reset with len := 0xFFFF })
    (fun t => t.len == 0xFFFF && t.err == .range && t.buf == []) = true := by decide +kernel
theorem test_crcver_wrong_order : ends
    (exec .crcver { loaded 0 [0x01, 0x03, 0x00, 0x64, 0x00, 0x01, 0xD5, 0xC5] with
      len := 8, crcOk := true })
    (fun t => t.crc == 0xD5C5 && !t.crcOk && t.err == .none) = true := by decide +kernel
theorem test_crcver_two_bytes : ends (exec .crcver { loaded 0 [0xFF, 0xFF] with len := 2 })
    (fun t => t.crc == 0xFFFF && t.crcOk && t.err == .none) = true := by decide +kernel

/- ==== The frame check: V-FC-1 ==== -/

theorem test_frmchk_exception : ends
    (exec (.frmchk 0x03) exceptionFrame)
    (fun t => t.regRead .status == 0x00020410 && t.crc == 0xF1C0 && t.len == 5) = true := by
  decide +kernel
theorem test_frmchk_other_exception_is_ok : ends
    (exec (.frmchk 0x03) { loaded 0 [0x01, 0x84, 0x02, 0xC2, 0xC1] with len := 5 })
    (fun t => t.fres == .ok && t.exc == 0 && t.crcOk) = true := by decide +kernel

/- ==== Scalars and arrays: V-TR-2 to V-TR-4 ==== -/

/-- The buffer of V-TR-2 under a value of CFG. -/
def scalarBytes (cfg : BitVec 3) : State :=
  { loaded 0 [0x11, 0x22, 0x33, 0x44, 0x55, 0x66, 0x77, 0x88] with cfg := cfg }

/-- DATA of V-TR-3 under a value of CFG. -/
def scalarData (cfg : BitVec 3) : State :=
  { State.reset with cfg := cfg, data := 0x1122334455667788 }

theorem test_dec16 : ends (exec .dec16 (scalarBytes 3))
    (fun t => t.data == 0x2211) = true := by decide +kernel
theorem test_dec16_zero_extends : ends
    (exec .dec16 { loaded 5 [0x80, 0x01] with data := 0xFFFFFFFFFFFFFFFF, src := 5, cfg := 0 })
    (fun t => t.data == 0x8001) = true := by decide +kernel
theorem test_dec32 : ends (exec .dec32 (scalarBytes 2))
    (fun t => t.data == 0x33441122) = true := by decide +kernel
theorem test_dec32_both : ends (exec .dec32 (scalarBytes 7))
    (fun t => t.data == 0x44332211) = true := by decide +kernel
theorem test_dec64 : ends (exec .dec64 (scalarBytes 2))
    (fun t => t.data == 0x7788556633441122) = true := by decide +kernel
theorem test_dec64_range : ends (exec .dec64 { State.reset with data := 0x1234, src := 249 })
    (fun t => t.data == 0x1234 && t.err == .range) = true := by decide +kernel
theorem test_enc16 : ends (exec .enc16 { scalarData 1 with dst := 254 })
    (fun t => bytesAt t 253 3 == [none, some 0x88, some 0x77] && t.err == .none) = true := by
  decide +kernel
theorem test_enc32 : ends (exec .enc32 (scalarData 2))
    (fun t => bytesAt t 0 5 == [some 0x77, some 0x88, some 0x55, some 0x66, none]) = true := by
  decide +kernel
theorem test_enc32_range : ends (exec .enc32 { scalarData 1 with dst := 253 })
    (fun t => t.buf == [] && t.err == .range) = true := by decide +kernel
theorem test_enc64 : ends (exec .enc64 (scalarData 2))
    (fun t => bytesAt t 0 8 == [some 0x77, some 0x88, some 0x55, some 0x66, some 0x33, some 0x44,
      some 0x11, some 0x22]) = true := by decide +kernel
theorem test_perm16_overlap : ends
    (exec .perm16 (operands 0 1 2 0 (loaded 0 [0x12, 0x34, 0xAB, 0xCD])))
    (fun t => t.rlen == 4 &&
      bytesAt t 0 5 == [some 0x12, some 0x34, some 0x12, some 0xCD, some 0xAB]) = true := by
  decide +kernel
theorem test_perm32_large_count : ends (exec .perm32 (operands 0 0 0x8000 0 State.reset))
    (fun t => t.rlen == 0 && t.err == .range) = true := by decide +kernel
theorem test_perm32 : ends
    (exec .perm32 { operands 0 16 2 0 (loaded 0 [0x3F, 0x80, 0x00, 0x00, 0x40, 0x00, 0x00, 0x00])
      with cfg := 3 })
    (fun t => t.rlen == 8 && bytesAt t 16 8 == [some 0x00, some 0x00, some 0x80, some 0x3F,
      some 0x00, some 0x00, some 0x00, some 0x40]) = true := by decide +kernel
theorem test_perm64 : ends
    (exec .perm64 { operands 0 0 1 0 (loaded 0 [0x01, 0x02, 0x03, 0x04, 0x05, 0x06, 0x07, 0x08])
      with cfg := 2 })
    (fun t => t.rlen == 8 && bytesAt t 0 8 == [some 0x07, some 0x08, some 0x05, some 0x06,
      some 0x03, some 0x04, some 0x01, some 0x02]) = true := by decide +kernel
theorem test_perm64_destination_range : ends
    (exec .perm64 (operands 0 252 1 0 (loaded 0 [1, 2, 3, 4, 5, 6, 7, 8])))
    (fun t => t.rlen == 0 && t.err == .range) = true := by decide +kernel

/- ==== Strings and booleans: V-STR-1, V-STR-2, V-BOOL-1 ==== -/

theorem test_strenc : ends
    (exec (.strenc false) { operands 0 16 5 99 (loaded 0 [0x41, 0x42, 0x43, 0x44, 0x45]) with
      cfg := 5 })
    (fun t => t.rlen == 6 && bytesAt t 16 7 == [some 0x42, some 0x41, some 0x44, some 0x43,
      some 0x00, some 0x45, none]) = true := by decide +kernel
theorem test_strenc_fixed_truncates : ends
    (exec (.strenc true) { operands 0 16 5 3 (loaded 0 [0x41, 0x42, 0x43, 0x44, 0x45]) with
      cfg := 4 })
    (fun t => t.rlen == 4 && bytesAt t 16 5 == [some 0x42, some 0x41, some 0x00, some 0x43, none]) =
      true := by decide +kernel
theorem test_strdec_fixed : ends
    (exec (.strdec true) { operands 16 0 6 5
      (loaded 16 [0x42, 0x41, 0x44, 0x43, 0x00, 0x45]) with cfg := 5 })
    (fun t => t.rlen == 5 && bytesAt t 0 6 == [some 0x41, some 0x42, some 0x43, some 0x44,
      some 0x45, none]) = true := by decide +kernel
theorem test_strdec_range_before_arg : ends (exec (.strdec false) (operands 253 0 5 0 State.reset))
    (fun t => t.err == .range) = true := by decide +kernel
theorem test_bpack : ends
    (exec .bpack (operands 0 16 10 0 (loaded 0 [0xFF, 0, 0x80, 1, 0, 0, 1, 1, 1, 0])))
    (fun t => t.rlen == 2 && bytesAt t 16 3 == [some 0xCD, some 0x01, none]) = true := by
  decide +kernel
theorem test_bpack_range : ends (exec .bpack (operands 0 255 10 0 State.reset))
    (fun t => t.rlen == 0 && t.err == .range) = true := by decide +kernel
theorem test_bunpack_in_place : ends (exec .bunpack (operands 0 0 3 0 (loaded 0 [0x05])))
    (fun t => t.rlen == 3 && bytesAt t 0 4 == [some 1, some 0, some 1, none]) = true := by
  decide +kernel
theorem test_bunpack_ignores_padding : ends
    (exec .bunpack (operands 0 16 10 0 (loaded 0 [0xCD, 0xFF])))
    (fun t => bytesAt t 24 3 == [some 1, some 1, none]) = true := by decide +kernel

/- ==== The host port: V-RST-1, V-REG-1, V-BUS-1, V-FAULT-1 ==== -/

theorem test_reset_cfg : ends (access (.read .w32 0x00) State.reset)
    (fun t => t.replies == [.data (.b32 1)]) = true := by decide +kernel
theorem test_cfg_reserved_bits : ends (access (.write 0x00 (.b32 0xFFFFFFFF)) State.reset)
    (fun t => t.regRead .cfg == 7) = true := by decide +kernel
theorem test_rlen_read_only : ends (access (.write 0x2C (.b32 5)) State.reset)
    (fun t => t.regRead .rlen == 0 && t.replies == [.accepted]) = true := by decide +kernel
theorem test_bus_error_inside_cmd : ends
    (access (.write 0x0E (.b32 1)) { State.reset with crc := 0x1234 })
    (fun t => t.replies == [.busError] && t.crc == 0x1234) = true := by decide +kernel
theorem test_bus_error_narrow : ends (access (.read .w16 0x00) State.reset)
    (fun t => t.replies == [.busError]) = true := by decide +kernel
theorem test_bus_error_unmapped : ends (access (.write 0x0FFFC (.b32 0)) State.reset)
    (fun t => t.replies == [.busError]) = true := by decide +kernel
theorem test_bus_error_beyond_buffer : ends (access (.write 0x10100 (.b8 0x5A)) State.reset)
    (fun t => t.replies == [.busError] && t.buf == []) = true := by decide +kernel
theorem test_larger_buffer : ends
    (access (.write 0x10100 (.b8 0x5A)) (State.resetOf ⟨512, by decide, by decide⟩))
    (fun t => t.replies == [.accepted] && t.buf.read 256 == some 0x5A) = true := by decide +kernel
theorem test_fault_read : faultsAt (access (.read .w8 0x10007) State.reset) 7 = true := by
  decide +kernel
theorem test_fault_dec16 : faultsAt (exec .dec16 State.reset) 0 = true := by decide +kernel
theorem test_fault_crcver : faultsAt (exec .crcver { loaded 0 [1, 2, 3] with len := 5 }) 3 =
    true := by decide +kernel
theorem test_short_frame_reads_nothing : ends (exec (.frmchk 0x03) { State.reset with len := 4 })
    (fun t => t.fres == .short && t.err == .none) = true := by decide +kernel
theorem test_step_runs_cmd_write : ends (step (State.reset.withFetchWord 32 0x00000102))
    (fun t => t.crc == 0x807E && t.inputs == [] && t.replies == [.accepted]) = true := by
  decide +kernel
theorem test_illegal_changes_only_err : ends (execWord 0x00000007 { State.reset with crcOk := true })
    (fun t => t == { State.reset with crcOk := true, err := .illegal }) = true := by decide +kernel
theorem test_frame_parts : exceptionFrame.frameCrcLo = some 0xC0 ∧
    exceptionFrame.frameCrcHi = some 0xF1 ∧ exceptionFrame.bodyLength = 3 ∧
    exceptionFrame.functionCode = some 0x83 ∧
    ({ exceptionFrame with len := 1 }).station = some 0x01 ∧
    ({ exceptionFrame with len := 1 }).functionCode = none ∧
    ({ exceptionFrame with len := 1 }).frameCrcHi = none := by decide
theorem test_setcfg : lineAccesses (.setcfg true false true) = [.write 0x00 (.b32 5)] := by decide
theorem test_command_line : lineAccesses (.command (.strenc true)) =
    [.write 0x0C (.b32 0x00000120)] := by decide

/- ==== Witnesses: a state and operands that meet the hypotheses of each statement ==== -/

/-- A state in which every command is ready: sixteen bytes written, small ranges. -/
def readyState : State :=
  { operands 0 8 2 2 (loaded 0 [1, 2, 3, 4, 5, 6, 7, 8, 9, 10, 11, 12, 13, 14, 15, 16]) with
    len := 6 }

theorem written_readyState {a n : Nat} (h : a + n ≤ 16) : Written readyState.buf a n :=
  fun p _ h2 => written_of_holds (holds_loaded 0 _) p (Nat.zero_le _) (by
    simp only [List.length_cons, List.length_nil]; omega)

/-- A buffer write waiting, for the clause over every access; a CMD write of a command waiting. -/
theorem witness_StepRunsTheDecodedCommand :
    ({ State.reset with inputs := [.access (.write 0x100FF (.b8 0x5A))] }).inputs =
        .access (.write 0x100FF (.b8 0x5A)) :: [] ∧
    (State.reset.withFetchWord 32 0x00006402).inputs =
        .access (.write 0x0C#17 (.b32 0x00006402)) :: [] ∧
      decode 0x00006402 = .ok (.crcbyte 0x64) := by decide

/-- A legal word with IMM8 at its largest value, and illegal words that differ from legal ones in one bit of RSV, of OP, of IMM8. -/
theorem witness_EveryWordIsOneRowOrIllegal :
    (∃ i, decode 0x0000FF02 = .ok i) ∧ (∃ i, decode 0x00000121 = .ok i) ∧
      (∃ e, decode 0x00010001 = .error e) ∧ (∃ e, decode 0x00000013 = .error e) ∧
      (∃ e, decode 0x00000220 = .error e) ∧ ∃ e, decode 0x00000110 = .error e :=
  ⟨⟨_, rfl⟩, ⟨_, rfl⟩, ⟨_, rfl⟩, ⟨_, rfl⟩, ⟨_, rfl⟩, ⟨_, rfl⟩⟩

/-- An error at the boundary of its range, and a command that answers next. -/
theorem witness_CommandErrorsArePreciseAndComplete :
    commandError .crcbuf (operands 257 0 0 0 State.reset) ≠ .none ∧
      commandError (.strdec true) (operands 0 0 2 3 State.reset) ≠ .none ∧
      ∃ t, exec .crcbuf (operands 256 0 0 0 State.reset) = .next t :=
  ⟨by decide, by decide, _, rfl⟩

/-- One state in which every command meets the hypotheses, so each of the nineteen completes somewhere. -/
theorem witness_ReadyCommandsComplete :
    ∀ i : Instr, commandError i readyState = .none ∧ Ready i readyState := by
  intro i
  cases i with
  | strenc fixed => cases fixed <;> exact ⟨by decide, written_readyState (by decide)⟩
  | strdec fixed => cases fixed <;> exact ⟨by decide, written_readyState (by decide)⟩
  | crcbyte imm => exact ⟨rfl, written_readyState (show 0 + 0 ≤ 16 by decide)⟩
  | frmchk imm => exact ⟨rfl, written_readyState (show 0 + 6 ≤ 16 by decide)⟩
  | _ => exact ⟨by decide, written_readyState (by decide)⟩

theorem witness_ReadingAnUnwrittenByteFaults :
    (commandError .crcver { loaded 0 [1, 2, 3] with len := 5 } = .none ∧
      FirstUnwritten (loaded 0 [1, 2, 3]).buf 0 5 3) ∧
    255 < State.reset.bufSize.val ∧ State.reset.buf.read 255 = none := by
  refine ⟨⟨by decide, by decide, by decide, by decide, fun q _ h => ?_⟩, by decide, rfl⟩
  exact written_of_holds (holds_loaded 0 [1, 2, 3]) q (Nat.zero_le _) (by
    simp only [List.length_cons, List.length_nil]; omega)

/-- For the two frames: a command that completes and one that reports an error. -/
theorem witness_CommandsWriteOnlyTheirRange :
    (∃ t, exec .bunpack readyState = .next t ∧ (t.err == .none) = true) ∧
      ∃ t, exec .bunpack (operands 0 255 2 0 readyState) = .next t ∧ (t.err == .range) = true :=
  ⟨exists_next (p := fun t => t.err == .none) (by decide +kernel),
    exists_next (p := fun t => t.err == .range) (by decide +kernel)⟩

theorem witness_CommandsWriteOnlyTheirRegisters :
    ∃ t, exec (.frmchk 0x03) exceptionFrame = .next t ∧ (t.fres == .exc) = true :=
  exists_next (p := fun t => t.fres == .exc) (by decide +kernel)

theorem witness_EveryStepKeepsTheInvariant :
    (readyState.withFetchWord 32 0x31).wf = true ∧
      ∃ t, step (readyState.withFetchWord 32 0x31) = .next t ∧ (t.rlen == 2) = true :=
  ⟨by decide +kernel, exists_next (p := fun t => t.rlen == 2) (by decide +kernel)⟩

theorem witness_BufSizeNeverChanges : ∃ t, step State.reset = .next t := ⟨_, rfl⟩

/-- The same four bytes at 0 and at 4; the destination overlaps the source in the first state and not in the second. -/
theorem witness_BufferCommandsActOnASnapshot :
    Holds (loaded 0 [1, 2, 3, 4]).buf 0 [1, 2, 3, 4] ∧
      Holds (loaded 4 [1, 2, 3, 4]).buf 4 [1, 2, 3, 4] ∧
      (∃ t, exec .perm16 (operands 0 1 2 0 (loaded 0 [1, 2, 3, 4])) = .next t ∧
        (t.err == .none) = true) ∧
      ∃ t, exec .perm16 (operands 4 100 2 0 (loaded 4 [1, 2, 3, 4])) = .next t ∧
        (t.err == .none) = true :=
  ⟨holds_loaded _ _, holds_loaded _ _,
    exists_next (p := fun t => t.err == .none) (by decide +kernel),
    exists_next (p := fun t => t.err == .none) (by decide +kernel)⟩

/-- CFG values that differ from the reset value only in the flags a command does not read. -/
theorem witness_CommandsReadOnlyTheirFlags :
    (7#3).getLsbD 0 = State.reset.cfg.getLsbD 0 ∧
      ((5#3).getLsbD 0 = State.reset.cfg.getLsbD 0 ∧
        (5#3).getLsbD 1 = State.reset.cfg.getLsbD 1) ∧
      (2#3).getLsbD 2 = State.reset.cfg.getLsbD 2 := by decide

theorem witness_CrcStepShiftsAndXorsThePolynomial : 0 < 16 ∧ 14 < 16 ∧ 15 < 16 := by decide

/-- For every IllegalUnless: a word of each operation with RSV 1, and one whose IMM8 its form does not admit. -/
theorem witness_IllegalUnless :
    (∀ op : Byte, (0x0001#16 ++ 0x00#8 ++ op).extractLsb' 0 8 = op ∧
      (0x0001#16 ++ 0x00#8 ++ op).extractLsb' 16 16 ≠ 0#16) ∧
    (∀ op : Byte, (0x0000#16 ++ 0x02#8 ++ op).extractLsb' 0 8 = op ∧
      (0x0000#16 ++ 0x02#8 ++ op).extractLsb' 8 8 = 2#8 ∧ ¬ (2#8 = 0#8 ∨ 2#8 = 1#8)) := by
  decide +kernel

theorem witness_CrcbufFoldsARange :
    (operands 257 0 0 0 State.reset).bufSize.val < (257#16).toNat + (0#16).toNat ∧
      ((254#16).toNat + (2#16).toNat ≤ State.reset.bufSize.val ∧
        [0x12#8, 0x34#8].length = (2#16).toNat ∧
        Holds (loaded 254 [0x12, 0x34]).buf (254#16).toNat [0x12#8, 0x34#8]) :=
  ⟨by decide, by decide, by decide, holds_loaded _ _⟩

theorem witness_CrcbufOverASplitRange :
    (operands 0 0 6 0 readyState).cnt.toNat = (2#16).toNat + (4#16).toNat ∧
      ∃ t, exec .crcbuf (operands 0 0 6 0 readyState) = .next t ∧ (t.err == .none) = true :=
  ⟨by decide, exists_next (p := fun t => t.err == .none) (by decide +kernel)⟩

theorem witness_CrcappAppendsTheCrc :
    ({ State.reset with len := 255 }).bufSize.val < (255#16).toNat + 2 ∧
      ((254#16).toNat + 2 ≤ State.reset.bufSize.val ∧
        (List.replicate 254 0x01#8).length = (254#16).toNat ∧
        Holds (loaded 0 (List.replicate 254 0x01#8)).buf 0 (List.replicate 254 0x01#8)) :=
  ⟨by decide, by decide, by rw [List.length_replicate]; rfl, holds_loaded _ _⟩

theorem witness_CrcverComparesTheTrailer :
    State.reset.bufSize.val < (257#16).toNat ∧ (1#16).toNat < 2 ∧
      ((2#16).toNat ≤ State.reset.bufSize.val ∧ (2#16).toNat = ([] : List Byte).length + 2 ∧
        Holds (loaded 0 [0xFF, 0xFF]).buf 0 ([] ++ [0xFF#8, 0xFF#8])) :=
  ⟨by decide, by decide, by decide, by decide, holds_loaded 0 [0xFF, 0xFF]⟩

/-- CRCAPP completes, also where it leaves no room in BUF. -/
theorem witness_AppendedCrcVerifies :
    ∃ t, exec .crcapp readyState = .next t ∧ (t.err == .none) = true :=
  exists_next (p := fun t => t.err == .none) (by decide +kernel)

theorem witness_CrcResidueIsZero :
    2 ≤ (2#16).toNat ∧ (2#16).toNat ≤ State.reset.bufSize.val ∧
      [0xFF#8, 0xFF#8].length = (2#16).toNat ∧
      Holds (loaded 0 [0xFF, 0xFF]).buf 0 [0xFF#8, 0xFF#8] :=
  ⟨by decide, by decide, by decide, holds_loaded _ _⟩

theorem witness_SecondCrcappAppendsZeros :
    ∃ t u, exec .crcapp readyState = .next t ∧ exec .crcapp t = .next u ∧
      (t.err == .none && u.err == .none) = true := by
  obtain ⟨t, ht, hp⟩ := exists_next (r := exec .crcapp readyState)
    (p := fun t => t.err == .none && ends (exec .crcapp t) fun u => u.err == .none)
    (by decide +kernel)
  simp only [Bool.and_eq_true] at hp
  obtain ⟨u, hu, hq⟩ := exists_next hp.2
  exact ⟨t, u, ht, hu, by simp only [hp.1, hq, Bool.and_self]⟩

/-- The last bit of the last byte of a frame that passes. -/
theorem witness_SingleBitFlipsAreDetected :
    (∃ t, exec .crcver { loaded 0 [0xFF, 0xFF] with len := 2 } = .next t ∧
      (t.err == .none && t.crcOk) = true) ∧
    1 < (2#16).toNat ∧ 7 < 8 ∧ (loaded 0 [0xFF, 0xFF]).buf.read 1 = some 0xFF#8 :=
  ⟨exists_next (p := fun t => t.err == .none && t.crcOk) (by decide +kernel), by decide, by decide,
    by decide⟩

/-- The three clauses: LEN = 257, LEN = 4, and a frame of five bytes, with a CRC that matches and with one that does not. -/
theorem witness_FrmchkChecksAFrame :
    State.reset.bufSize.val < (257#16).toNat ∧ (4#16).toNat < 5 ∧
      ((5#16).toNat ≤ State.reset.bufSize.val ∧
        (5#16).toNat = [0x01#8, 0x83#8, 0x02#8].length + 2 ∧
        Holds exceptionFrame.buf 0 ([0x01, 0x83, 0x02] ++ [0xC0, 0xF1])) ∧
      (0xC0#8 = (crc16 [0x01, 0x83, 0x02]).extractLsb' 0 8 ∧
        0xF1#8 = (crc16 [0x01, 0x83, 0x02]).extractLsb' 8 8) ∧
      ¬ (0xC0#8 = (crc16 [0x01, 0x83, 0x03]).extractLsb' 0 8 ∧
        0xF1#8 = (crc16 [0x01, 0x83, 0x03]).extractLsb' 8 8) :=
  ⟨by decide, by decide, ⟨by decide, by decide, holds_loaded 0 [0x01, 0x83, 0x02, 0xC0, 0xF1]⟩,
    by decide +kernel, by decide +kernel⟩

theorem witness_SingleByteChangesFailTheFrameCheck :
    (∃ t, exec (.frmchk 0x03) exceptionFrame = .next t ∧ (t.err == .none && t.crcOk) = true) ∧
      4 < exceptionFrame.len.toNat ∧ exceptionFrame.buf.read 4 = some 0xF1#8 ∧ 0xF0#8 ≠ 0xF1#8 :=
  ⟨exists_next (p := fun t => t.err == .none && t.crcOk) (by decide +kernel), by decide, by decide,
    by decide⟩

theorem witness_ExceptionCodesWithAMeaning : ∀ code ∈ [0x00#8, 0x07#8, 0x09#8, 0x0C#8],
    code ∉ [0x01#8, 0x02#8, 0x03#8, 0x04#8, 0x05#8, 0x06#8, 0x08#8, 0x0A#8, 0x0B#8] := by decide

/-- A sequence of each length the scalar statements speak of, with the highest index of each clause; it serves PermSwapsBytesThenWords, PermIsItsOwnInverse and DecodeAndEncodeScalars. -/
theorem witness_Perm : ∀ n ∈ [1, 2, 4],
    (List.replicate (2 * n) 0x5A#8).length = 2 * n ∧ n - 1 < n ∧ 2 * n - 1 < 2 * n ∧
      ((true = true ∧ n ∈ [2, 4]) ∨ ¬ (true = true ∧ n ∈ [2, 4])) := by decide

theorem witness_EncThenDecRestoresData :
    ∀ i ∈ [Instr.enc16, .enc32, .enc64],
      ∃ t, exec i { scalarData 3 with dst := 9 } = .next t ∧ (t.err == .none) = true := by
  intro i hi
  simp only [List.mem_cons, List.not_mem_nil, or_false] at hi
  rcases hi with rfl | rfl | rfl <;>
    exact exists_next (p := fun t => t.err == .none) (by decide +kernel)

/-- For each width: the first position that does not fit, the last that does, an unwritten byte, and bytes at the end of BUF. -/
theorem witness_DecReadsAScalarIntoData :
    (∀ n ∈ [1, 2, 4], State.reset.bufSize.val < (257 - 2 * n) + 2 * n ∧
      (256 - 2 * n) + 2 * n ≤ State.reset.bufSize.val) ∧
    ¬ Written State.reset.buf 0 2 ∧ ¬ Written (loaded 0 [1, 2, 3, 4, 5, 6, 7]).buf 0 8 ∧
    Holds (loaded 254 [0xAB, 0xCD]).buf (254#16).toNat [0xAB#8, 0xCD#8] ∧
    Holds (loaded 248 [1, 2, 3, 4, 5, 6, 7, 8]).buf (248#16).toNat [1, 2, 3, 4, 5, 6, 7, 8] :=
  ⟨by decide, fun h => absurd (h 0 (by decide) (by decide)) (by decide),
    fun h => absurd (h 7 (by decide) (by decide)) (by decide), holds_loaded _ _, holds_loaded _ _⟩

theorem witness_EncStoresDataAsAScalar : ∀ n ∈ [1, 2, 4],
    State.reset.bufSize.val < (BitVec.ofNat 16 (257 - 2 * n)).toNat + 2 * n ∧
      (BitVec.ofNat 16 (256 - 2 * n)).toNat + 2 * n ≤ State.reset.bufSize.val := by decide

theorem witness_ArraysPermuteElementByElement : ∀ n ∈ [1, 2, 4],
    (List.replicate (2 * n * 3) 0x5A#8).length = 2 * n * 3 ∧ 2 < 3 := by decide

/-- For each width: a source that passes the end, a destination that does, and two elements that fit exactly, at the end of BUF. -/
theorem witness_PermStoresThePermutedArray : ∀ n ∈ [1, 2, 4],
    State.reset.bufSize.val < (BitVec.ofNat 16 (257 - 4 * n)).toNat + 2 * n * (2#16).toNat ∧
      (0#16).toNat + 2 * n * (2#16).toNat ≤ State.reset.bufSize.val ∧
      (BitVec.ofNat 16 (256 - 4 * n)).toNat + 2 * n * (2#16).toNat ≤ State.reset.bufSize.val ∧
      (List.replicate (4 * n) 0x5A#8).length = 2 * n * (2#16).toNat ∧
      Holds (loaded 0 (List.replicate (4 * n) 0x5A)).buf (0#16).toNat
        (List.replicate (4 * n) 0x5A#8) := by
  intro n hn
  refine ⟨?_, ?_, ?_, ?_, holds_loaded 0 _⟩
  all_goals
    simp only [List.mem_cons, List.not_mem_nil, or_false] at hn
    rcases hn with rfl | rfl | rfl <;> decide

theorem witness_TypedViewsOfData : 1 ∈ [1, 2, 4] ∧ 2 ∈ [1, 2, 4] ∧ 4 ∈ [1, 2, 4] := by decide

/-- An odd length and its padding byte; an even source cut short. -/
theorem witness_StringBytes : 5 < 5 + 5 % 2 ∧ [0x41#8, 0x42#8].length % 2 = 0 ∧
    1 ≤ [0x41#8, 0x42#8].length ∧ 0 < 1 := by decide

theorem witness_StringRoundTrip :
    [0x41#8, 0x42#8, 0x43#8].length ≤ 3 ∧ 2 < [0x41#8, 0x42#8, 0x43#8].length := by decide

/-- Both forms of the encode; the decode's destination is the last that fits. -/
theorem witness_StrencThenStrdecRestoresTheString :
    let s := operands 0 16 3 3 (loaded 0 [0x41, 0x42, 0x43])
    s.cnt.toNat ≤ s.aux.toNat ∧ [0x41#8, 0x42#8, 0x43#8].length = s.cnt.toNat ∧
      Holds s.buf s.src.toNat [0x41, 0x42, 0x43] ∧
      (∃ t, exec (.strenc true) s = .next t ∧ (t.err == .none) = true) ∧
      (∃ t, exec (.strenc false) s = .next t ∧ (t.err == .none) = true) ∧
      (253#16).toNat + s.cnt.toNat ≤ s.bufSize.val :=
  ⟨by decide, by decide, holds_loaded 0 [0x41, 0x42, 0x43],
    exists_next (p := fun t => t.err == .none) (by decide +kernel),
    exists_next (p := fun t => t.err == .none) (by decide +kernel), by decide⟩

/-- Source or destination one past the end; both exactly at it, with the odd length padded. -/
theorem witness_StrencEncodesAString :
    State.reset.bufSize.val < (254#16).toNat + (3#16).toNat ∧
      State.reset.bufSize.val < (253#16).toNat + ((3#16).toNat + (3#16).toNat % 2) ∧
      ((253#16).toNat + (3#16).toNat ≤ State.reset.bufSize.val ∧
        (252#16).toNat + ((3#16).toNat + (3#16).toNat % 2) ≤ State.reset.bufSize.val ∧
        [0x41#8, 0x42#8, 0x43#8].length = (3#16).toNat ∧
        Holds (loaded 253 [0x41, 0x42, 0x43]).buf (253#16).toNat [0x41, 0x42, 0x43]) :=
  ⟨by decide, by decide, by decide, by decide, by decide, holds_loaded _ _⟩

/-- RANGE; then, with both ranges fitting, an odd CNT, a result longer than CNT by one, and a result as long as CNT. -/
theorem witness_StrdecDecodesAString :
    State.reset.bufSize.val < (253#16).toNat + (4#16).toNat ∧
      (252#16).toNat + (4#16).toNat ≤ State.reset.bufSize.val ∧
      (251#16).toNat + (5#16).toNat ≤ State.reset.bufSize.val ∧
      (5#16).toNat % 2 = 1 ∧ (4#16).toNat < (5#16).toNat ∧
      ((4#16).toNat % 2 = 0 ∧ (4#16).toNat ≤ (4#16).toNat ∧
        [0x42#8, 0x41#8, 0x00#8, 0x43#8].length = (4#16).toNat ∧
        Holds (loaded 252 [0x42, 0x41, 0x00, 0x43]).buf (252#16).toNat [0x42, 0x41, 0x00, 0x43]) :=
  ⟨by decide, by decide, by decide, by decide, by decide, by decide, by decide, by decide,
    holds_loaded _ _⟩

theorem witness_BooleanPacking : 7 < 8 ∧ [0xCD#8, 0x01#8].length = (10 + 7) / 8 ∧ 9 < 10 := by
  decide

theorem witness_PackUnpackRoundTrips : [0xCD#8, 0xFF#8].length = (10 + 7) / 8 ∧ 7 < 8 := by decide

theorem witness_BpackPacksARange :
    State.reset.bufSize.val < (255#16).toNat + (2#16).toNat ∧
      State.reset.bufSize.val < (256#16).toNat + ((2#16).toNat + 7) / 8 ∧
      ((254#16).toNat + (2#16).toNat ≤ State.reset.bufSize.val ∧
        (255#16).toNat + ((2#16).toNat + 7) / 8 ≤ State.reset.bufSize.val ∧
        [0x01#8, 0x00#8].length = (2#16).toNat ∧
        Holds (loaded 254 [0x01, 0x00]).buf (254#16).toNat [0x01, 0x00]) :=
  ⟨by decide, by decide, by decide, by decide, by decide, holds_loaded _ _⟩

theorem witness_BunpackUnpacksARange :
    State.reset.bufSize.val < (255#16).toNat + ((9#16).toNat + 7) / 8 ∧
      State.reset.bufSize.val < (248#16).toNat + (9#16).toNat ∧
      ((254#16).toNat + ((9#16).toNat + 7) / 8 ≤ State.reset.bufSize.val ∧
        (247#16).toNat + (9#16).toNat ≤ State.reset.bufSize.val ∧
        [0xCD#8, 0x01#8].length = ((9#16).toNat + 7) / 8 ∧
        Holds (loaded 254 [0xCD, 0x01]).buf (254#16).toNat [0xCD, 0x01]) :=
  ⟨by decide, by decide, by decide, by decide, by decide, holds_loaded _ _⟩

/-- Offsets at the edges of the map: the last register, the last byte of the window, and just beyond each; accepted accesses that answer next. -/
theorem witness_BusErrorsExactlyOffTheMap :
    Accepts State.reset .w32 0x2C ∧ Accepts State.reset .w8 0x100FF ∧
      (∀ width, ¬ Accepts State.reset width 0x30) ∧
      (∀ width, ¬ Accepts State.reset width 0x10100) ∧
      (∃ t, access (.read .w32 0x2C) State.reset = .next t) ∧
      ∃ t, access (.write 0x100FF (.b8 1)) State.reset = .next t := by
  refine ⟨.inl (by decide), .inr (by decide), fun width => ?_, fun width => ?_, ⟨_, rfl⟩, ⟨_, rfl⟩⟩
  all_goals
    rintro (h | h)
    · exact absurd h.2 (by decide)
    · exact absurd h.2 (by decide)

theorem witness_RegisterWritesStoreTheUsedBits :
    writable .cfg = true ∧ writable .dataHi = true ∧ writable .rlen = false ∧
      (Reg.rlen = .status ∨ Reg.rlen = .rlen) := by decide

theorem witness_OnlyCmdWritesHaveSideEffects :
    (∃ t, access (.read .w32 0x04) State.reset = .next t) ∧ Reg.crc ≠ .cmd ∧ Reg.len ≠ .crc ∧
      255 < State.reset.bufSize.val := ⟨⟨_, rfl⟩, by decide, by decide, by decide⟩

theorem witness_WindowReadsWhatWasWritten :
    255 < (loaded 255 [0x5A]).bufSize.val ∧ (loaded 255 [0x5A]).buf.read 255 = some 0x5A#8 := by
  decide

/-- Two states that agree in everything the statement asks: a state, and the one it is after its bytes were written in another order. -/
theorem witness_NoHiddenState :
    let s := loaded 0 [1, 2]
    let t := { State.reset with buf := (Memory.write (Memory.write [] 1 2) 0 1) }
    s.wf = true ∧ t.wf = true ∧ t.bufSize = s.bufSize ∧ t.inputs = s.inputs ∧
      t.replies = s.replies ∧ (∀ r, t.regRead r = s.regRead r) ∧
      ∀ n < s.bufSize.val, t.buf.read n = s.buf.read n :=
  ⟨by decide, by decide, rfl, rfl, rfl, fun _ => rfl, fun _ _ => rfl⟩

theorem witness_ResetInputResetsTheBlock :
    ({ readyState with inputs := [.reset] }).inputs = .reset :: [] := rfl

theorem witness_WaitingChangesNothing : readyState.inputs = [] := rfl

theorem witness_PseudoInstructionsDoWhatTheyExpandTo :
    ((HostLine.load 254 [1, 2]).wellFormed = true ∧
      (254#16).toNat + [1#8, 2#8].length ≤ State.reset.bufSize.val) ∧
    ((254#16).toNat + (2#16).toNat ≤ State.reset.bufSize.val ∧
      [1#8, 2#8].length = (2#16).toNat ∧
      Holds (loaded 254 [1, 2]).buf (254#16).toNat [1#8, 2#8]) :=
  ⟨by decide, by decide, by decide, holds_loaded _ _⟩

end Sys2Proof.Tests
end

section
/-! The proof of O13 (rule R79): a buffer-to-buffer command computes its output from the bytes it read of its source range, and stores it at DST after the read; neither SRC nor DST has a part in what it stores. -/

namespace Sys2Proof.Machine

/-- The buffer-to-buffer commands (rule R79), in the order of rule R94. -/
def bufferCommands : List Instr :=
  [.perm16, .perm32, .perm64, .strenc false, .strenc true, .strdec false, .strdec true, .bpack,
    .bunpack]

@[simp] theorem commandEffect_store_rlen (out : List Byte) (n : Nat) (s : State) :
    (commandEffect.store out n s).rlen = BitVec.ofNat 16 n := rfl

theorem commandEffect_store_read_dst {out : List Byte} {k : Nat} (n : Nat) (s : State)
    (hk : k < out.length) :
    (commandEffect.store out n s).buf.read (s.dst.toNat + k) = some out[k] :=
  (stores_writeAll s.buf s.dst.toNat out).1 k out[k] (List.getElem?_eq_getElem hk)

theorem writeRange_strenc_length (fixed : Bool) (s : State) :
    (writeRange (.strenc fixed) s).2 = s.stringLength fixed + s.stringLength fixed % 2 := by
  cases fixed <;> rfl

theorem writeRange_strdec_length (fixed : Bool) (s : State) :
    (writeRange (.strdec fixed) s).2 = s.stringLength fixed := by
  cases fixed <;> rfl

/-- STRDEC's check of ARG (rule R174). -/
theorem stringLength_le_cnt_of_strdec {fixed : Bool} {s : State}
    (h : commandError (.strdec fixed) s = .none) : s.stringLength fixed ≤ s.cnt.toNat := by
  have ha := (commandError_eq_none.mp h).2
  simp only [argumentsFit, writeRange_strdec_length, Bool.and_eq_true, decide_eq_true_eq] at ha
  exact ha.2

/-- A command that answers with ERR = NONE passed its checks and had its effect on the bytes its source range holds. -/
theorem eq_commandEffect_of_completes {i : Instr} {s t : State} {bytes : List Byte}
    (hl : bytes.length = (readRange i s).2) (hh : Holds s.buf (readRange i s).1 bytes)
    (ht : exec i s = .next t) (he : t.err = .none) :
    commandError i s = .none ∧ t = commandEffect i bytes s := by
  rcases exec_cases ht with ⟨hc, rfl⟩ | ⟨hc, bytes', hl', hh', rfl⟩
  · exact absurd he hc
  · rw [holds_unique hh' hh (hl'.trans hl.symm)]
    exact ⟨hc, rfl⟩

section SameOperands

/-! Two states that agree in the operands other than the positions SRC and DST. -/

variable {s s' : State} (hcfg : s'.cfg = s.cfg) (hcnt : s'.cnt = s.cnt) (haux : s'.aux = s.aux)

include hcnt in
theorem readRange_length_congr {i : Instr} (hi : i ∈ bufferCommands) :
    (readRange i s').2 = (readRange i s).2 := by
  cases i with
  | perm16 | perm32 | perm64 | strenc | strdec | bpack | bunpack => simp only [readRange, hcnt]
  | _ => simp [bufferCommands] at hi

include hcnt haux in
theorem stringLength_congr (fixed : Bool) : s'.stringLength fixed = s.stringLength fixed := by
  simp only [State.stringLength, hcnt, haux]

include hcfg hcnt haux in
/-- On the same source bytes a buffer-to-buffer command stores the same output in both states, as long as its destination range, which is also the count in RLEN. -/
theorem exists_common_output {i : Instr} (hi : i ∈ bufferCommands) {bytes : List Byte}
    (hc : commandError i s = .none) (hl : bytes.length = (readRange i s).2) :
    ∃ out, out.length = (writeRange i s).2 ∧
      commandEffect i bytes s = commandEffect.store out (writeRange i s).2 s ∧
      commandEffect i bytes s' = commandEffect.store out (writeRange i s).2 s' := by
  have hws : s'.ws = s.ws := by simp only [State.ws, hcfg]
  have hmws : s'.mws = s.mws := by simp only [State.mws, hcfg]
  have hsws : s'.sws = s.sws := by simp only [State.sws, hcfg]
  have hlen := stringLength_congr hcnt haux
  cases i with
  | perm16 | perm32 | perm64 =>
    refine ⟨_, length_permArray s.ws s.mws hl, rfl, ?_⟩
    simp only [commandEffect, hws, hmws, hcnt]
    rfl
  | strenc fixed =>
    rw [writeRange_strenc_length]
    refine ⟨_, length_strEncode bytes (s.stringLength fixed) s.sws, rfl, ?_⟩
    simp only [commandEffect, hsws, hlen]
  | strdec fixed =>
    rw [writeRange_strdec_length]
    have hfit : s.stringLength fixed ≤ bytes.length := hl ▸ stringLength_le_cnt_of_strdec hc
    refine ⟨_, length_strDecode s.sws hfit, rfl, ?_⟩
    simp only [commandEffect, hsws, hlen]
  | bpack =>
    refine ⟨pack bytes, (length_pack bytes).trans (congrArg packedLength hl), rfl, ?_⟩
    simp only [commandEffect, hcnt]
    rfl
  | bunpack =>
    refine ⟨_, length_unpack bytes s.cnt.toNat, rfl, ?_⟩
    simp only [commandEffect, hcnt]
    rfl
  | _ => simp [bufferCommands] at hi

end SameOperands

/-- Settles O13: both completions store one and the same output, each at its own DST. -/
theorem bufferCommandsActOnASnapshot : Obligations.BufferCommandsActOnASnapshot := by
  intro i hi s s' t t' bytes hcfg hcnt haux hl hh hh' ht ht' he he'
  obtain ⟨hc, rfl⟩ := eq_commandEffect_of_completes hl hh ht he
  have hl' := hl.trans (readRange_length_congr hcnt hi).symm
  obtain ⟨-, rfl⟩ := eq_commandEffect_of_completes hl' hh' ht' he'
  obtain ⟨out, hout, hs, hs'⟩ := exists_common_output hcfg hcnt haux hi hc hl
  rw [hs, hs']
  refine ⟨by simp only [commandEffect_store_rlen], fun k hk => ?_⟩
  rw [← hout] at hk
  rw [commandEffect_store_read_dst _ _ hk, commandEffect_store_read_dst _ _ hk]

end Sys2Proof.Machine
end

section
/-! The proof of O4 (rules R92, R95, R96). A word selects a row of the table exactly when the decoder reads a command of that row from it; as the decoder is a function, no word selects two rows, and a word it rejects selects none. -/

namespace Sys2Proof.Machine

/-- How a command uses IMM8 (rule R93). -/
def immForm : Instr → ImmForm
  | .crcbyte _ | .frmchk _ => .byte
  | .strenc _ | .strdec _ => .flags
  | _ => .none

/-- The bits of IMM8 that a form fixes at 0 (rule R93). -/
def fixedImmBits : ImmForm → Byte
  | .byte => 0x00
  | .flags => 0xFE
  | .none => 0xFF

/-- RSV is 0, OP is the command's, and the command's form admits IMM8. -/
def HasFieldsOf (w : Word) (i : Instr) : Prop :=
  w.extractLsb' 16 16 = 0#16 ∧ (immForm i).admits (w.extractLsb' 8 8) = true ∧
    w.extractLsb' 0 8 = i.op

theorem admits_iff_fixedImmBits (f : ImmForm) (imm : Byte) :
    f.admits imm = true ↔ imm &&& fixedImmBits f = 0#8 := by
  cases f with
  | byte => simp [ImmForm.admits, fixedImmBits]
  | flags => revert imm; decide +kernel
  | none =>
    have hones : imm &&& 0xFF#8 = imm := BitVec.and_allOnes
    simp [ImmForm.admits, fixedImmBits, hones]

/-- The fields of a row's mask and pattern (rule R95). -/
theorem row_fields (i : Instr) :
    i.row.mask = 0xFFFF#16 ++ fixedImmBits (immForm i) ++ 0xFF#8 ∧
      i.row.pattern = 0#16 ++ 0#8 ++ i.op := by
  cases i <;> simp only [Instr.row, Instr.op, immForm, fixedImmBits] <;> exact ⟨rfl, rfl⟩

theorem row_mem_opcodeTable (i : Instr) : i.row ∈ opcodeTable := by
  cases i <;> simp [opcodeTable, rowSamples, Instr.row]

theorem bitVec_append_eq_append_iff {m n : Nat} {x x' : BitVec m} {y y' : BitVec n} :
    x ++ y = x' ++ y' ↔ x = x' ∧ y = y' := by
  refine ⟨fun h => ⟨?_, ?_⟩, fun ⟨hx, hy⟩ => hx ▸ hy ▸ rfl⟩
  · simpa only [BitVec.extractLsb'_append_eq_left] using congrArg (BitVec.extractLsb' n m) h
  · simpa only [BitVec.extractLsb'_append_eq_right] using congrArg (BitVec.extractLsb' 0 n) h

theorem word_eq_append_fields (w : Word) :
    w = w.extractLsb' 16 16 ++ w.extractLsb' 8 8 ++ w.extractLsb' 0 8 := by
  rw [BitVec.extractLsb'_append_extractLsb'_eq_extractLsb' (by rfl),
    BitVec.extractLsb'_append_extractLsb'_eq_extractLsb' (by rfl), BitVec.extractLsb'_eq_self]

theorem and_row_mask_eq_pattern_iff (w : Word) (i : Instr) :
    w &&& i.row.mask = i.row.pattern ↔ HasFieldsOf w i := by
  obtain ⟨hmask, hpattern⟩ := row_fields i
  have hrsv : w.extractLsb' 16 16 &&& 0xFFFF#16 = w.extractLsb' 16 16 := BitVec.and_allOnes
  have hop : w.extractLsb' 0 8 &&& 0xFF#8 = w.extractLsb' 0 8 := BitVec.and_allOnes
  conv_lhs => rw [word_eq_append_fields w, hmask, hpattern]
  rw [BitVec.and_append, BitVec.and_append, hrsv, hop, bitVec_append_eq_append_iff,
    bitVec_append_eq_append_iff, ← admits_iff_fixedImmBits, HasFieldsOf, and_assoc]

theorem withNoImm_eq_ok {imm : Byte} {i j : Instr} :
    withNoImm imm i = .ok j ↔ imm = 0#8 ∧ i = j := by
  unfold withNoImm
  split <;> simp [*]

theorem withFlag_eq_ok {imm : Byte} {f : Bool → Instr} {j : Instr} :
    withFlag imm f = .ok j ↔ imm.extractLsb' 1 7 = 0#7 ∧ f (imm.getLsbD 0) = j := by
  unfold withFlag
  split <;> simp [*]

/-- The decoder reads a command only from its own OP and an IMM8 its form admits. -/
theorem fields_of_decodeOp {op imm : Byte} {i : Instr} (h : decodeOp op imm = .ok i) :
    (immForm i).admits imm = true ∧ op = i.op := by
  unfold decodeOp at h
  split at h
  case h_2 hop | h_6 hop => cases h; exact ⟨rfl, BitVec.eq_of_toNat_eq hop⟩
  case h_16 hop | h_17 hop =>
    obtain ⟨himm, rfl⟩ := withFlag_eq_ok.mp h
    exact ⟨beq_iff_eq.mpr himm, BitVec.eq_of_toNat_eq hop⟩
  case h_20 => cases h
  all_goals
    rename_i hop
    obtain ⟨rfl, rfl⟩ := withNoImm_eq_ok.mp h
    exact ⟨rfl, BitVec.eq_of_toNat_eq hop⟩

/-- The decoder reads a command of i's row from i's OP and any IMM8 that i's form admits. -/
theorem decodeOp_of_admits {i : Instr} {imm : Byte} (h : (immForm i).admits imm = true) :
    ∃ j, decodeOp i.op imm = .ok j ∧ j.row = i.row := by
  cases i with
  | crcbyte | frmchk => exact ⟨_, rfl, rfl⟩
  | strenc | strdec => exact ⟨_, withFlag_eq_ok.mpr ⟨eq_of_beq h, rfl⟩, rfl⟩
  | _ => exact ⟨_, withNoImm_eq_ok.mpr ⟨eq_of_beq h, rfl⟩, rfl⟩

theorem decode_eq_ok {w : Word} {i : Instr} : decode w = .ok i ↔
    w.extractLsb' 16 16 = 0#16 ∧ decodeOp (w.extractLsb' 0 8) (w.extractLsb' 8 8) = .ok i := by
  unfold decode
  split <;> simp_all

theorem hasFieldsOf_of_decode {w : Word} {i : Instr} (h : decode w = .ok i) : HasFieldsOf w i :=
  have ⟨hrsv, hop⟩ := decode_eq_ok.mp h
  ⟨hrsv, fields_of_decodeOp hop⟩

theorem exists_decode_of_hasFieldsOf {w : Word} {i : Instr} (h : HasFieldsOf w i) :
    ∃ j, decode w = .ok j ∧ j.row = i.row := by
  obtain ⟨hrsv, himm, hop⟩ := h
  obtain ⟨j, hj, hrow⟩ := decodeOp_of_admits himm
  exact ⟨j, decode_eq_ok.mpr ⟨hrsv, hop ▸ hj⟩, hrow⟩

/-- A row that a word selects is the row of the command the decoder reads from it. -/
theorem exists_decode_of_mem_opcodeTable {w : Word} {r : TableRow} (hr : r ∈ opcodeTable)
    (h : w &&& r.mask = r.pattern) : ∃ j, decode w = .ok j ∧ j.row = r := by
  obtain ⟨i, -, rfl⟩ := List.mem_map.mp hr
  exact exists_decode_of_hasFieldsOf ((and_row_mask_eq_pattern_iff w i).mp h)

theorem exists_op_eq_iff (op : Byte) : (∃ i : Instr, op = i.op) ↔
    op.toNat ∈ [0x01, 0x02, 0x03, 0x04, 0x05, 0x06, 0x10, 0x11, 0x12, 0x14, 0x15, 0x16, 0x18, 0x19,
      0x1A, 0x20, 0x21, 0x30, 0x31] := by
  constructor
  · rintro ⟨i, rfl⟩
    cases i <;> simp [Instr.op]
  · intro h
    obtain ⟨i, -, hi⟩ := List.mem_map.mp (show op.toNat ∈ rowSamples.map (·.op.toNat) from h)
    exact ⟨i, BitVec.eq_of_toNat_eq hi.symm⟩

theorem admits_iff_of_op (i : Instr) (imm : Byte) : (immForm i).admits imm = true ↔
    (i.op.toNat ∈ [0x20, 0x21] → imm.extractLsb' 1 7 = 0#7) ∧
      (i.op.toNat ∉ [0x02, 0x06, 0x20, 0x21] → imm = 0#8) := by
  cases i <;> simp [immForm, ImmForm.admits, Instr.op]

/-- Settles O4: the decoder reads a command exactly from the legal words, and a word selects exactly the row of the command read from it. -/
theorem everyWordIsOneRowOrIllegal : Obligations.EveryWordIsOneRowOrIllegal := by
  intro w op imm legal
  have hlegal : legal ↔ ∃ i, HasFieldsOf w i := by
    constructor
    · rintro ⟨hrsv, hop, himm⟩
      obtain ⟨i, hi⟩ := (exists_op_eq_iff _).mpr hop
      exact ⟨i, hrsv, (admits_iff_of_op i imm).mpr (by rwa [← hi]), hi⟩
    · rintro ⟨i, hrsv, himm, hi⟩
      have hop : op = i.op.toNat := congrArg BitVec.toNat hi
      refine ⟨hrsv, (exists_op_eq_iff _).mp ⟨i, hi⟩, ?_⟩
      rw [hop]
      exact (admits_iff_of_op i imm).mp himm
  rw [hlegal]
  constructor
  · rintro ⟨i, hi⟩
    obtain ⟨j, hj, -⟩ := exists_decode_of_hasFieldsOf hi
    refine ⟨j, hj, row_mem_opcodeTable j,
      (and_row_mask_eq_pattern_iff w j).mpr (hasFieldsOf_of_decode hj), fun r hr hsel => ?_⟩
    obtain ⟨k, hk, rfl⟩ := exists_decode_of_mem_opcodeTable hr hsel
    rw [Except.ok.inj (hk.symm.trans hj)]
  · intro hnone
    have hreject (i : Instr) : decode w ≠ .ok i := fun h => hnone ⟨i, hasFieldsOf_of_decode h⟩
    refine ⟨fun r hr hsel => ?_, fun s => ?_⟩
    · obtain ⟨k, hk, -⟩ := exists_decode_of_mem_opcodeTable hr hsel
      exact hreject k hk
    · cases h : decode w with
      | ok i => exact absurd h (hreject i)
      | error e => exact execWord_of_error h s

end Sys2Proof.Machine
end

section
/-! Facts that the statements about single commands share: the words of a command, and what a command with one checked range does. -/

namespace Sys2Proof.Machine

/-- The word of a command selects it (rules R95, R97). -/
theorem selects_of_encode_eq {w : Word} {i : Instr} (h : Laws.RoundTrip.Statement i)
    (hw : encode i = w) : Selects w i :=
  hw ▸ execWord_of_decode h.1

/-- An operation of the form "none" is ILLEGAL with any IMM8 but 0 (rule R93 (c)). -/
theorem illegalUnless_of_withNoImm {op : Byte} {i : Instr}
    (h : ∀ imm, decodeOp op imm = withNoImm imm i) : IllegalUnless op (· = 0#8) :=
  illegalUnless fun imm himm => ⟨.immNotZero, by rw [h, withNoImm, if_neg himm]⟩

section OneRange

variable {i : Instr} {s : State} {a n : Nat} (hr : checkedRanges i s = [(a, n)])
include hr

theorem exec_of_oneRange_error (h : s.bufSize.val < a + n) :
    exec i s = .next { s with err := .range } := by
  have hf : rangesFit i s = false := by simpa [rangesFit, hr] using h
  rw [exec_eq, commandError_of_ranges hf]
  rfl

theorem exec_of_oneRange_holds (ha : argumentsFit i s = true) (h : a + n ≤ s.bufSize.val)
    {bytes : List Byte} (hl : bytes.length = (readRange i s).2)
    (hh : Holds s.buf (readRange i s).1 bytes) :
    exec i s = .next (commandEffect i bytes s) := by
  have hf : rangesFit i s = true := by simpa [rangesFit, hr] using h
  exact exec_of_holds (commandError_eq_none.mpr ⟨hf, ha⟩) hl hh

end OneRange

end Sys2Proof.Machine
end

section
/-! The proofs of O17, O18, O19, O21 and O22 (rules R110, R113 to R117): the step of the CRC and the five commands of the CRC family. -/

namespace Sys2Proof.Machine

/-- The shifted accumulator, which the polynomial is XORed into exactly when bit 0 was 1. -/
theorem crcShift_eq_xor (c : Half) :
    crcShift c = (c >>> 1) ^^^ (if c.getLsbD 0 then 0xA001#16 else 0#16) := by
  unfold crcShift
  split
  · rfl
  · exact BitVec.xor_zero.symm

theorem getLsbD_ushiftRight_one (c : Half) (k : Nat) :
    (c >>> 1).getLsbD k = (decide (k < 15) && c.getLsbD (k + 1)) := by
  rw [BitVec.getLsbD_ushiftRight, Nat.add_comm]
  by_cases hk : k < 15
  · simp [hk]
  · simp [hk, BitVec.getLsbD_of_ge c (k + 1) (by omega)]

theorem getLsbD_crcShift (c : Half) (k : Nat) :
    (crcShift c).getLsbD k =
      ((decide (k < 15) && c.getLsbD (k + 1)) ^^ (c.getLsbD 0 && (0xA001#16).getLsbD k)) := by
  rw [crcShift_eq_xor, BitVec.getLsbD_xor, getLsbD_ushiftRight_one]
  cases c.getLsbD 0 <;> simp

theorem crcStep_eq_crcShifts (c : Half) (b : Byte) :
    crcStep c b = crcShift (crcShift (crcShift (crcShift (crcShift (crcShift (crcShift (crcShift
      (c ^^^ b.setWidth 16)))))))) := by
  simp only [crcStep, Nat.repeat]

/-- Settles O17: bit by bit a shift is the shifted bit XOR the masked polynomial, and a step is eight shifts. -/
theorem crcStepShiftsAndXorsThePolynomial : Obligations.CrcStepShiftsAndXorsThePolynomial :=
  ⟨fun c k _ => getLsbD_crcShift c k, crcStep_eq_crcShifts⟩

/-- Settles O18: neither command has a check or reads BUF, so each is its effect on CRC and ERR. -/
theorem crcinitAndCrcbyte : Obligations.CrcinitAndCrcbyte :=
  ⟨selects_of_encode_eq Laws.RoundTrip.crcinit rfl, illegalUnless_of_withNoImm fun _ => rfl,
    fun b => selects_of_encode_eq (Laws.RoundTrip.crcbyte b) rfl,
    illegalUnless fun _ h => absurd trivial h,
    fun _ => ⟨rfl, fun _ => rfl⟩⟩

/-- Settles O19: CRCBUF checks the one range it reads. -/
theorem crcbufFoldsARange : Obligations.CrcbufFoldsARange :=
  ⟨selects_of_encode_eq Laws.RoundTrip.crcbuf rfl, illegalUnless_of_withNoImm fun _ => rfl,
    fun _ => ⟨exec_of_oneRange_error rfl,
      fun _ hfit hl hh => exec_of_oneRange_holds (i := .crcbuf) rfl rfl hfit hl hh⟩⟩

/-- A length that fits in BUF does not wrap as a 16-bit register value (rules R6, R26). -/
theorem toNat_ofNat_of_le_bufSize {n : Nat} {size : BufSize} (h : n ≤ size.val) :
    (BitVec.ofNat 16 n).toNat = n := by
  have hmost := size.most
  rw [BitVec.toNat_ofNat, Nat.mod_eq_of_lt (by omega)]

/-- Settles O21: the range check covers the two bytes to append, and MemWrite stores them at LEN. -/
theorem crcappAppendsTheCrc : Obligations.CrcappAppendsTheCrc := by
  refine ⟨selects_of_encode_eq Laws.RoundTrip.crcapp rfl, illegalUnless_of_withNoImm fun _ => rfl,
    fun s => ⟨fun h => exec_of_oneRange_error rfl (by simpa using h),
      fun frame hfit hl hh => ⟨commandEffect .crcapp frame s, ?_, rfl, ?_, ?_⟩⟩⟩
  · exact exec_of_oneRange_holds rfl rfl (by simpa using hfit) hl hh
  · exact toNat_ofNat_of_le_bufSize hfit
  · exact stores_writeAll s.buf s.len.toNat [crcLo (crc16 frame), crcHi (crc16 frame)]

theorem trailerMatches_eq_decide (c : Half) (lo hi : Byte) :
    trailerMatches c lo hi = decide (lo = c.extractLsb' 0 8 ∧ hi = c.extractLsb' 8 8) := by
  simp [trailerMatches, crcLo, crcHi, Bool.decide_and, beq_eq_decide]

/-- The verdict on a frame given as its body and its two trailer bytes. -/
theorem trailerVerdict_append (body : List Byte) (lo hi : Byte) :
    trailerVerdict (body ++ [lo, hi]) =
      (crc16 body, trailerMatches (crc16 body) lo hi) := by
  simp [trailerVerdict]

theorem commandEffect_crcver_short {s : State} (h : s.len.toNat < 2) (bytes : List Byte) :
    commandEffect .crcver bytes s = { s with crcOk := false, err := .none } := if_pos h

theorem commandEffect_crcver_append {s : State} {body : List Byte} {lo hi : Byte}
    (h : s.len.toNat = body.length + 2) :
    commandEffect .crcver (body ++ [lo, hi]) s = { s with
      crcOk := trailerMatches (crc16 body) lo hi, crc := crc16 body, err := .none } := by
  rw [commandEffect, if_neg (by omega), trailerVerdict_append]

theorem readRange_crcver_short {s : State} (h : s.len.toNat < 2) :
    readRange .crcver s = (0, 0) := congrArg (Prod.mk 0) (if_pos h)

theorem readRange_crcver_long {s : State} (h : 2 ≤ s.len.toNat) :
    readRange .crcver s = (0, s.len.toNat) := congrArg (Prod.mk 0) (if_neg (by omega))

/-- Settles O22: a frame of fewer than 2 bytes is not read; of a longer one the verdict compares the trailer with the CRC of the body. -/
theorem crcverComparesTheTrailer : Obligations.CrcverComparesTheTrailer := by
  refine ⟨selects_of_encode_eq Laws.RoundTrip.crcver rfl, illegalUnless_of_withNoImm fun _ => rfl,
    fun s => ⟨fun h => exec_of_oneRange_error rfl (by simpa using h), fun h => ?_,
      fun body lo hi hfit hlen hh => ?_⟩⟩
  · have hleast := s.bufSize.least
    have hread := readRange_crcver_short h
    rw [exec_of_oneRange_holds (bytes := []) rfl rfl (by omega) (by rw [hread]; rfl)
      (by rw [hread]; exact holds_nil _ _), commandEffect_crcver_short h]
  · have hread : readRange .crcver s = (0, s.len.toNat) := readRange_crcver_long (by omega)
    rw [exec_of_oneRange_holds (bytes := body ++ [lo, hi]) rfl rfl (by omega)
      (by rw [hread]; simpa using hlen.symm) (by rw [hread]; exact hh),
      commandEffect_crcver_append hlen, trailerMatches_eq_decide]

end Sys2Proof.Machine
end

section
/-! The proofs of O30 and O36 (rules R141, R157): how `perm_N` places the bytes of a scalar, that it is its own inverse, and an array as its first element and the rest. -/

namespace Sys2Proof.Machine

theorem perm_of_multiWord {n : Nat} {mws : Bool} (h : mws = true ∧ n ∈ [2, 4]) (s : List Byte)
    (ws : Bool) : perm n s ws mws = reverseWords (if ws then swapPairs s else s) := by
  obtain ⟨rfl, hn⟩ := h
  exact if_pos (by simpa using hn)

theorem perm_of_not_multiWord {n : Nat} {mws : Bool} (h : ¬ (mws = true ∧ n ∈ [2, 4]))
    (s : List Byte) (ws : Bool) : perm n s ws mws = if ws then swapPairs s else s :=
  if_neg (by simpa using h)

/-- The word at place k of the reversed words is the one at the mirrored place, its bytes in place. -/
theorem getElem?_reverseWords {j : Nat} (hj : j < 2) : ∀ {s : List Byte} {n k : Nat},
    s.length = 2 * n → k < n → (reverseWords s)[2 * k + j]? = s[2 * (n - 1 - k) + j]?
  | [], n, k, h, hk => by simp at h; omega
  | [_], n, k, h, hk => by simp at h; omega
  | a :: b :: rest, 0, k, h, hk => by omega
  | a :: b :: rest, n + 1, k, h, hk => by
    have hrest : rest.length = 2 * n := by simp at h; omega
    rw [reverseWords]
    rcases Nat.lt_or_ge k n with hlt | hge
    · rw [List.getElem?_append_left (by simp; omega), getElem?_reverseWords hj hrest hlt,
        show 2 * (n + 1 - 1 - k) + j = 2 * (n - 1 - k) + j + 2 by omega]
      rfl
    · obtain rfl : k = n := by omega
      rw [List.getElem?_append_right (by simp; omega), length_reverseWords, hrest,
        show 2 * (k + 1 - 1 - k) + j = j by omega, show 2 * k + j - 2 * k = j by omega]
      match j, hj with
      | 0, _ => rfl
      | 1, _ => rfl

/-- Settles O30: the intermediate sequence is the source with the bytes of each word swapped when WS is set. -/
theorem permSwapsBytesThenWords : Obligations.PermSwapsBytesThenWords := by
  intro n _ s ws mws hs
  refine ⟨if ws then swapPairs s else s, by split <;> simp [hs], by simp [hs], ?_, ?_, ?_,
    fun h => perm_of_not_multiWord h s ws⟩
  · rintro rfl k -
    have heven : s.length % 2 = 0 := by omega
    simp [getElem?_swapPairs s _ heven, Nat.add_mod]
  · rintro rfl
    rfl
  · intro h k hk
    have ht : (if ws then swapPairs s else s).length = 2 * n := by split <;> simp [hs]
    rw [perm_of_multiWord h]
    exact ⟨getElem?_reverseWords (j := 0) (by omega) ht hk,
      getElem?_reverseWords (j := 1) (by omega) ht hk⟩

theorem reverseWords_append_word (a b : Byte) : ∀ {s : List Byte}, s.length % 2 = 0 →
    reverseWords (s ++ [a, b]) = a :: b :: reverseWords s
  | [], _ => rfl
  | [_], h => by simp at h
  | c :: d :: rest, h => by
    simp [reverseWords, reverseWords_append_word a b (s := rest) (by simp at h; omega)]

theorem swapPairs_append_word (a b : Byte) : ∀ {s : List Byte}, s.length % 2 = 0 →
    swapPairs (s ++ [a, b]) = swapPairs s ++ [b, a]
  | [], _ => rfl
  | [_], h => by simp at h
  | c :: d :: rest, h => by
    simp [swapPairs, swapPairs_append_word a b (s := rest) (by simp at h; omega)]

theorem reverseWords_reverseWords : ∀ {s : List Byte}, s.length % 2 = 0 →
    reverseWords (reverseWords s) = s
  | [], _ => rfl
  | [_], h => by simp at h
  | a :: b :: rest, h => by
    have hrest : rest.length % 2 = 0 := by simp at h; omega
    rw [reverseWords, reverseWords_append_word a b (by simpa using hrest),
      reverseWords_reverseWords hrest]

/-- The word swap and the multi-word swap commute. -/
theorem swapPairs_reverseWords : ∀ {s : List Byte}, s.length % 2 = 0 →
    swapPairs (reverseWords s) = reverseWords (swapPairs s)
  | [], _ => rfl
  | [_], h => by simp at h
  | a :: b :: rest, h => by
    have hrest : rest.length % 2 = 0 := by simp at h; omega
    rw [reverseWords, swapPairs_append_word a b (by simpa using hrest),
      swapPairs_reverseWords hrest, swapPairs, reverseWords]

/-- `perm_N` is its own inverse on whole words (rule R144). -/
theorem perm_perm (n : Nat) {s : List Byte} (ws mws : Bool) (h : s.length % 2 = 0) :
    perm n (perm n s ws mws) ws mws = s := by
  by_cases hm : mws = true ∧ n ∈ [2, 4]
  · rw [perm_of_multiWord hm, perm_of_multiWord hm]
    cases ws with
    | false => exact reverseWords_reverseWords h
    | true =>
      simp only [if_true, swapPairs_reverseWords (s := swapPairs s) (by simpa using h),
        swapPairs_swapPairs, reverseWords_reverseWords h]
  · rw [perm_of_not_multiWord hm, perm_of_not_multiWord hm]
    cases ws with
    | false => rfl
    | true => exact swapPairs_swapPairs s

section Array

variable {n : Nat} {x : List Byte} (hx : x.length = 2 * n)
include hx

/-- An array whose first element is x: the element on its own, then the rest. -/
theorem permArray_succ_append (m : Nat) (rest : List Byte) (ws mws : Bool) :
    permArray n (m + 1) (x ++ rest) ws mws = perm n x ws mws ++ permArray n m rest ws mws := by
  rw [permArray, List.take_left' hx, List.drop_left' hx]

/-- Past the first element, element e + 1 is element e of the rest. -/
theorem drop_succ_element_append (e : Nat) (rest : List Byte) :
    (x ++ rest).drop (2 * n * (e + 1)) = rest.drop (2 * n * e) := by
  rw [Nat.mul_succ, Nat.add_comm, ← List.drop_drop, List.drop_left' hx]

end Array

theorem exists_first_element {n m : Nat} {bytes : List Byte}
    (h : bytes.length = 2 * n * (m + 1)) :
    ∃ x rest, bytes = x ++ rest ∧ x.length = 2 * n ∧ rest.length = 2 * n * m := by
  rw [Nat.mul_succ] at h
  exact ⟨bytes.take (2 * n), bytes.drop (2 * n), (List.take_append_drop _ _).symm,
    by rw [List.length_take]; omega, by rw [List.length_drop]; omega⟩

/-- Element e of a permuted array is the permuted element e (rule R157). -/
theorem permArray_element {n m e : Nat} {bytes : List Byte} (ws mws : Bool)
    (h : bytes.length = 2 * n * m) (he : e < m) :
    ((permArray n m bytes ws mws).drop (2 * n * e)).take (2 * n) =
      perm n ((bytes.drop (2 * n * e)).take (2 * n)) ws mws := by
  induction m generalizing bytes e with
  | zero => omega
  | succ m ih =>
    obtain ⟨x, rest, rfl, hx, hrest⟩ := exists_first_element h
    have hperm : (perm n x ws mws).length = 2 * n := by rw [length_perm, hx]
    rw [permArray_succ_append hx]
    cases e with
    | zero => rw [Nat.mul_zero, List.drop_zero, List.drop_zero, List.take_left' hperm,
        List.take_left' hx]
    | succ e =>
      rw [drop_succ_element_append hperm, drop_succ_element_append hx, ih hrest (by omega)]

theorem permArray_permArray {n m : Nat} {bytes : List Byte} (ws mws : Bool)
    (h : bytes.length = 2 * n * m) :
    permArray n m (permArray n m bytes ws mws) ws mws = bytes := by
  induction m generalizing bytes with
  | zero => exact (List.length_eq_zero_iff.mp h).symm
  | succ m ih =>
    obtain ⟨x, rest, rfl, hx, hrest⟩ := exists_first_element h
    rw [permArray_succ_append hx, permArray_succ_append (by rw [length_perm, hx]), ih hrest,
      perm_perm n ws mws (by omega)]

/-- Settles O36: an array is permuted element by element, and `perm_N` is its own inverse on each. -/
theorem arraysPermuteElementByElement : Obligations.ArraysPermuteElementByElement :=
  fun _ _ _ _ ws mws h =>
    ⟨length_permArray ws mws h, fun _ he => permArray_element ws mws h he,
      permArray_permArray ws mws h⟩

end Sys2Proof.Machine
end

section
/-! The proofs of O34, O35 and O37 (rules R147 to R155): what DEC, ENC and PERM do at every width, and the words of the nine commands. -/

namespace Sys2Proof.Machine

/-- A command of the form "none" is its OP under zeros (rules R93 (c), R99). -/
theorem decode_op_of_immForm_none {i : Instr} (h : immForm i = .none) :
    decode (0#24 ++ i.op) = .ok i := by
  cases i with
  | crcbyte | frmchk | strenc | strdec => cases h
  | _ => rfl

theorem decodeOp_op_of_immForm_none {i : Instr} (h : immForm i = .none) (imm : Byte) :
    decodeOp i.op imm = withNoImm imm i := by
  cases i with
  | crcbyte | frmchk | strenc | strdec => cases h
  | _ => rfl

/-- A row (command, N, OP) of one of the families DEC, ENC and PERM: a command of the form "none" that is the family's operation on scalars of N words. -/
def IsRowOf (family : Nat → State → Result) (x : Instr × Nat × Byte) : Prop :=
  immForm x.1 = .none ∧ x.1.op = x.2.2 ∧ exec x.1 = family x.2.1

theorem row_of_mem {family : Nat → State → Result} {a b c x : Instr × Nat × Byte}
    (hx : x ∈ [a, b, c]) (ha : IsRowOf family a) (hb : IsRowOf family b)
    (hc : IsRowOf family c) :
    Selects (0#24 ++ x.2.2) x.1 ∧ IllegalUnless x.2.2 (· = 0#8) ∧
      ∀ s, exec x.1 s = family x.2.1 s := by
  have hrow : IsRowOf family x := by
    simp only [List.mem_cons, List.not_mem_nil, or_false] at hx
    rcases hx with rfl | rfl | rfl <;> assumption
  obtain ⟨hform, hop, hexec⟩ := hrow
  rw [← hop]
  exact ⟨execWord_of_decode (decode_op_of_immForm_none hform),
    illegalUnless_of_withNoImm (decodeOp_op_of_immForm_none hform), congrFun hexec⟩

section Width

variable {n : Nat} {s : State}

theorem decodeToData_range (h : s.bufSize.val < s.src.toNat + 2 * n) :
    decodeToData n s = .next { s with err := .range } :=
  requireRange_error _ h

theorem decodeToData_unwritten (hfit : s.src.toNat + 2 * n ≤ s.bufSize.val)
    (h : ¬ Written s.buf s.src.toNat (2 * n)) : ∃ f, decodeToData n s = .fault f := by
  obtain ⟨p, hp⟩ := (written_or_firstUnwritten _ _ _).resolve_left h
  exact ⟨.unwritten p, by
    rw [decodeToData, requireRange_fits _ hfit, reading_memRead_of_firstUnwritten _ hp]⟩

theorem decodeToData_holds (hfit : s.src.toNat + 2 * n ≤ s.bufSize.val) {bytes : List Byte}
    (hl : bytes.length = 2 * n) (hh : Holds s.buf s.src.toNat bytes) :
    decodeToData n s = .next { s with
      data := (decodeScalar n bytes s.ws s.mws).setWidth 64, err := .none } := by
  rw [decodeToData, requireRange_fits _ hfit, memRead_eq_ok.mpr ⟨hl, hh⟩, reading_ok, complete_eq]

theorem encodeFromData_range (h : s.bufSize.val < s.dst.toNat + 2 * n) :
    encodeFromData n s = .next { s with err := .range } :=
  requireRange_error _ h

theorem encodeFromData_fits (h : s.dst.toNat + 2 * n ≤ s.bufSize.val) :
    encodeFromData n s = .next (commandEffect.encEffect n s) :=
  requireRange_fits _ h

theorem permuteArray_range (h : s.bufSize.val < s.src.toNat + 2 * n * s.cnt.toNat ∨
    s.bufSize.val < s.dst.toNat + 2 * n * s.cnt.toNat) :
    permuteArray n s = .next { s with err := .range } := by
  by_cases hsrc : s.bufSize.val < s.src.toNat + 2 * n * s.cnt.toNat
  · exact requireRange_error _ hsrc
  · exact (requireRange_fits _ (by omega)).trans (requireRange_error _ (h.resolve_left hsrc))

theorem permuteArray_holds (hsrc : s.src.toNat + 2 * n * s.cnt.toNat ≤ s.bufSize.val)
    (hdst : s.dst.toNat + 2 * n * s.cnt.toNat ≤ s.bufSize.val) {bytes : List Byte}
    (hl : bytes.length = 2 * n * s.cnt.toNat) (hh : Holds s.buf s.src.toNat bytes) :
    permuteArray n s = .next (commandEffect.store (permArray n s.cnt.toNat bytes s.ws s.mws)
      (2 * n * s.cnt.toNat) s) := by
  simp only [permuteArray, requireRange_fits _ hsrc, requireRange_fits _ hdst]
  rw [memRead_eq_ok.mpr ⟨hl, hh⟩]
  rfl

end Width

/-- Settles O34: each DEC command is `decodeToData` at its width. -/
theorem decReadsAScalarIntoData : Obligations.DecReadsAScalarIntoData := by
  intro x hx
  obtain ⟨hsel, hill, hexec⟩ := row_of_mem (family := decodeToData) hx
    ⟨rfl, rfl, rfl⟩ ⟨rfl, rfl, rfl⟩ ⟨rfl, rfl, rfl⟩
  refine ⟨hsel, hill, fun s => ?_⟩
  rw [hexec]
  exact ⟨decodeToData_range, fun hfit =>
    ⟨decodeToData_unwritten hfit, fun _ => decodeToData_holds hfit⟩⟩

/-- Settles O35: each ENC command is `encodeFromData` at its width. -/
theorem encStoresDataAsAScalar : Obligations.EncStoresDataAsAScalar := by
  intro x hx
  obtain ⟨hsel, hill, hexec⟩ := row_of_mem (family := encodeFromData) hx
    ⟨rfl, rfl, rfl⟩ ⟨rfl, rfl, rfl⟩ ⟨rfl, rfl, rfl⟩
  refine ⟨hsel, hill, fun s => ?_⟩
  rw [hexec]
  exact ⟨encodeFromData_range, fun hfit =>
    ⟨_, encodeFromData_fits hfit, rfl, stores_writeAll _ _ _, length_encodeScalar _ _ _ _⟩⟩

/-- Settles O37: each PERM command is `permuteArray` at its width; a length that fits in BUF does not wrap in RLEN. -/
theorem permStoresThePermutedArray : Obligations.PermStoresThePermutedArray := by
  intro x hx
  obtain ⟨hsel, hill, hexec⟩ := row_of_mem (family := permuteArray) hx
    ⟨rfl, rfl, rfl⟩ ⟨rfl, rfl, rfl⟩ ⟨rfl, rfl, rfl⟩
  refine ⟨hsel, hill, fun s => ?_⟩
  rw [hexec]
  refine ⟨permuteArray_range, fun bytes hsrc hdst hl hh =>
    ⟨_, permuteArray_holds hsrc hdst hl hh, rfl, ?_, stores_writeAll _ _ _,
      length_permArray _ _ hl⟩⟩
  exact toNat_ofNat_of_le_bufSize (size := s.bufSize) (by omega)

end Sys2Proof.Machine
end

section
/-! Facts that the statements about the string and boolean commands share: what a command with two checked ranges does, and how a buffer-to-buffer command ends. -/

namespace Sys2Proof.Machine

/-- With bits 7 to 1 clear, IMM8 is its bit 0 (rule R93 (b)). -/
theorem eq_zero_or_one_of_flagBits_eq_zero {imm : Byte} (h : imm.extractLsb' 1 7 = 0#7) :
    imm = 0#8 ∨ imm = 1#8 := by
  have hhigh : imm.toNat / 2 % 128 = 0 := by
    simpa [Nat.shiftRight_eq_div_pow] using congrArg BitVec.toNat h
  bv_omega

/-- An operation of the form "flags" is ILLEGAL with any IMM8 but 0 and 1 (rule R93 (b)). -/
theorem illegalUnless_of_withFlag {op : Byte} {i : Bool → Instr}
    (h : ∀ imm, decodeOp op imm = withFlag imm i) :
    IllegalUnless op (fun imm => imm = 0#8 ∨ imm = 1#8) := by
  refine illegalUnless fun imm himm => ⟨.flagBitsNotZero, ?_⟩
  rw [h, withFlag, if_neg fun hbits => himm (eq_zero_or_one_of_flagBits_eq_zero hbits)]

section TwoRanges

variable {i : Instr} {s : State} {a n b m : Nat} (hr : checkedRanges i s = [(a, n), (b, m)])
include hr

theorem rangesFit_of_twoRanges :
    rangesFit i s = true ↔ a + n ≤ s.bufSize.val ∧ b + m ≤ s.bufSize.val := by
  simp [rangesFit, hr]

theorem exec_of_twoRanges_error (h : s.bufSize.val < a + n ∨ s.bufSize.val < b + m) :
    exec i s = .next { s with err := .range } := by
  have hf : rangesFit i s = false := by
    rw [Bool.eq_false_iff, Ne, rangesFit_of_twoRanges hr]
    omega
  rw [exec_eq, commandError_of_ranges hf]
  rfl

theorem exec_of_twoRanges_arg (ha : argumentsFit i s = false) (h : a + n ≤ s.bufSize.val)
    (h' : b + m ≤ s.bufSize.val) : exec i s = .next { s with err := .arg } := by
  rw [exec_eq, commandError_of_arguments ((rangesFit_of_twoRanges hr).mpr ⟨h, h'⟩) ha]
  rfl

theorem exec_of_twoRanges_holds (ha : argumentsFit i s = true) (h : a + n ≤ s.bufSize.val)
    (h' : b + m ≤ s.bufSize.val) {bytes : List Byte} (hl : bytes.length = (readRange i s).2)
    (hh : Holds s.buf (readRange i s).1 bytes) :
    exec i s = .next (commandEffect i bytes s) :=
  exec_of_holds (commandError_eq_none.mpr ⟨(rangesFit_of_twoRanges hr).mpr ⟨h, h'⟩, ha⟩) hl hh

end TwoRanges

/-- The end of a buffer-to-buffer command: a destination that fits in BUF has a length that does not wrap in RLEN (rules R38, R78). -/
theorem exists_stores_of_exec_eq_store {i : Instr} {s : State} {out : List Byte} {n : Nat}
    (h : exec i s = .next (commandEffect.store out n s)) (hfit : s.dst.toNat + n ≤ s.bufSize.val) :
    ∃ t, exec i s = .next t ∧ t = { s with buf := t.buf, rlen := t.rlen, err := .none } ∧
      t.rlen.toNat = n ∧ Stores s.buf t.buf s.dst.toNat out :=
  ⟨_, h, rfl, toNat_ofNat_of_le_bufSize (size := s.bufSize) (by omega), stores_writeAll _ _ _⟩

end Sys2Proof.Machine
end

section
/-! The proofs of O39, O42 and O43 (rules R171 to R174): the bytes of an encoded and of a decoded string, and the commands STRENC and STRDEC. -/

namespace Sys2Proof.Machine

theorem getElem?_resize (s : List Byte) {L i : Nat} (hi : i < L) :
    (resize s L)[i]? = some (s.getD i 0#8) := by
  rw [List.getD_eq_getElem?_getD]
  unfold resize
  split
  · rw [List.getElem?_take_of_lt hi, List.getElem?_eq_getElem (by omega)]
    rfl
  · rcases Nat.lt_or_ge i s.length with hlt | hge
    · rw [List.getElem?_append_left hlt, List.getElem?_eq_getElem hlt]
      rfl
    · rw [List.getElem?_append_right hge, List.getElem?_replicate_of_lt (by omega),
        List.getElem?_eq_none hge]
      rfl

/-- Before the swap, a byte of an encoded string is the source's below the length, and 0 in the padding. -/
theorem getElem?_strEncode_false (s : List Byte) {L i : Nat} (hi : i < L + L % 2) :
    (strEncode s L false)[i]? = some (if i < L then s.getD i 0#8 else 0#8) := by
  have hpad : strEncode s L false =
      if L % 2 = 1 then resize s L ++ [0#8] else resize s L := rfl
  rw [hpad]
  by_cases hlt : i < L
  · rw [if_pos hlt, ← getElem?_resize s hlt]
    split
    · exact List.getElem?_append_left (by rwa [length_resize])
    · rfl
  · obtain rfl : i = L := by omega
    rw [if_pos (by omega), if_neg hlt, List.getElem?_append_right (by simp), length_resize,
      Nat.sub_self]
    rfl

/-- The swap of each pair comes last (rule R171). -/
theorem strEncode_eq_swap (s : List Byte) (L : Nat) (sws : Bool) :
    strEncode s L sws = if sws then swapPairs (strEncode s L false) else strEncode s L false := by
  cases sws <;> rfl

theorem getElem?_swapPairs_if {bytes : List Byte} (h : bytes.length % 2 = 0) (sws : Bool)
    (i : Nat) :
    (if sws then swapPairs bytes else bytes)[i]? =
      bytes[if sws then (if i % 2 = 0 then i + 1 else i - 1) else i]? := by
  cases sws with
  | false => rfl
  | true => exact getElem?_swapPairs bytes i h

/-- Settles O39: the bytes before the swap, each looked up at its place in the swapped pairs, which stay inside an even length. -/
theorem stringBytes : Obligations.StringBytes := by
  intro s L sws
  refine ⟨length_strEncode s L sws, fun i hi => ?_, fun heven hL =>
    ⟨length_strDecode sws hL, fun i hi => ?_⟩⟩
  · rw [strEncode_eq_swap, getElem?_swapPairs_if (by rw [length_strEncode]; omega)]
    exact getElem?_strEncode_false s (by split_ifs <;> omega)
  · rw [strDecode, List.getElem?_take_of_lt hi, getElem?_swapPairs_if heven]

theorem checkedRanges_strenc (fixed : Bool) (s : State) :
    checkedRanges (.strenc fixed) s = [(s.src.toNat, s.cnt.toNat),
      (s.dst.toNat, s.stringLength fixed + s.stringLength fixed % 2)] := by
  cases fixed <;> rfl

theorem checkedRanges_strdec (fixed : Bool) (s : State) :
    checkedRanges (.strdec fixed) s =
      [(s.src.toNat, s.cnt.toNat), (s.dst.toNat, s.stringLength fixed)] := by
  cases fixed <;> rfl

theorem argumentsFit_strdec (fixed : Bool) (s : State) :
    argumentsFit (.strdec fixed) s = true ↔
      s.cnt.toNat % 2 = 0 ∧ s.stringLength fixed ≤ s.cnt.toNat := by
  simp [argumentsFit, writeRange_strdec_length]

/-- Settles O42: STRENC checks its source and its padded destination, then stores the encoded string. -/
theorem strencEncodesAString : Obligations.StrencEncodesAString := by
  refine ⟨selects_of_encode_eq (Laws.RoundTrip.strenc false) rfl,
    selects_of_encode_eq (Laws.RoundTrip.strenc true) rfl, illegalUnless_of_withFlag fun _ => rfl,
    fun s fixed => ?_⟩
  have hr := checkedRanges_strenc fixed s
  exact ⟨exec_of_twoRanges_error hr, fun _ hsrc hdst hl hh =>
    exists_stores_of_exec_eq_store (exec_of_twoRanges_holds hr rfl hsrc hdst hl hh) hdst⟩

/-- Settles O43: STRDEC checks its two ranges, then CNT against 2 and the length, then stores the decoded string. -/
theorem strdecDecodesAString : Obligations.StrdecDecodesAString := by
  refine ⟨selects_of_encode_eq (Laws.RoundTrip.strdec false) rfl,
    selects_of_encode_eq (Laws.RoundTrip.strdec true) rfl, illegalUnless_of_withFlag fun _ => rfl,
    fun s fixed => ?_⟩
  have hr := checkedRanges_strdec fixed s
  have hargs := argumentsFit_strdec fixed s
  refine ⟨exec_of_twoRanges_error hr, fun hsrc hdst => ⟨fun h => ?_, fun _ heven hL hl hh => ?_⟩⟩
  · change _ ∨ s.cnt.toNat < s.stringLength fixed at h
    have hbad : argumentsFit (.strdec fixed) s = false := by
      rw [Bool.eq_false_iff, Ne, hargs]
      omega
    exact exec_of_twoRanges_arg hr hbad hsrc hdst
  · exact exists_stores_of_exec_eq_store
      (exec_of_twoRanges_holds hr (hargs.mpr ⟨heven, hL⟩) hsrc hdst hl hh) hdst

end Sys2Proof.Machine
end

section
/-! The proofs of O44, O46 and O47 (rules R176, R177, R179): the bits of packed booleans, the bytes of unpacked ones, and the commands BPACK and BUNPACK. -/

namespace Sys2Proof.Machine

/-- Bit k of a packed byte says whether byte k of its group is nonzero. -/
theorem getLsbD_packByte (bits : List Byte) {k : Nat} (hk : k < 8) :
    (packByte bits).getLsbD k = decide (bits.getD k 0#8 ≠ 0#8) := by
  induction bits generalizing k with
  | nil => simp [packByte]
  | cons b rest ih =>
    cases k with
    | zero => by_cases hb : b = 0#8 <;> simp [packByte, hb]
    | succ k =>
      have hlow : (if b = 0#8 then 0#8 else 1#8).getLsbD (k + 1) = false := by
        split <;> simp
      rw [packByte, BitVec.getLsbD_or, hlow, BitVec.getLsbD_shiftLeft, Nat.add_sub_cancel,
        ih (by omega), List.getD_cons_succ]
      simp [hk]

/-- Packed byte j packs the j-th group of eight; past the array the group is empty and the byte 0. -/
theorem getD_pack (bits : List Byte) (j : Nat) :
    (pack bits).getD j 0#8 = packByte ((bits.drop (8 * j)).take 8) := by
  rcases Nat.lt_or_ge j (packedLength bits.length) with hlt | hge
  · simp [pack, List.getD_eq_getElem?_getD, hlt]
  · have hempty : bits.drop (8 * j) = [] :=
      List.drop_eq_nil_of_le (by rw [packedLength] at hge; omega)
    rw [hempty, List.getD_eq_default _ _ (by rwa [length_pack])]
    rfl

theorem getD_group (bits : List Byte) (j : Nat) {k : Nat} (hk : k < 8) :
    ((bits.drop (8 * j)).take 8).getD k 0#8 = bits.getD (8 * j + k) 0#8 := by
  rw [List.getD_eq_getElem?_getD, List.getElem?_take_of_lt hk, List.getElem?_drop,
    List.getD_eq_getElem?_getD]

theorem getElem?_unpack (packed : List Byte) {m i : Nat} (hi : i < m) :
    (unpack packed m)[i]? =
      some (if (packed.getD (i / 8) 0#8).getLsbD (i % 8) then 1#8 else 0#8) := by
  simp [unpack, hi]

/-- Settles O44: packing bit by bit through `packByte`, unpacking byte by byte. -/
theorem booleanPacking : Obligations.BooleanPacking := by
  refine ⟨fun bits => ⟨length_pack bits, fun j k hk => ?_⟩, fun packed m hp =>
    ⟨length_unpack packed m, fun i hi => ?_⟩⟩
  · rw [getD_pack, getLsbD_packByte _ hk, getD_group bits j hk]
  · have hbyte : i / 8 < packed.length := by omega
    refine ⟨packed[i / 8], List.getElem?_eq_getElem hbyte, ?_⟩
    rw [getElem?_unpack packed hi, List.getD_eq_getElem _ _ hbyte]

/-- Settles O46: BPACK checks its source and its packed destination, then stores the packed bits. -/
theorem bpackPacksARange : Obligations.BpackPacksARange :=
  ⟨selects_of_encode_eq Laws.RoundTrip.bpack rfl, illegalUnless_of_withNoImm fun _ => rfl,
    fun _ => ⟨exec_of_twoRanges_error (i := .bpack) rfl, fun _ hsrc hdst hl hh =>
      exists_stores_of_exec_eq_store
        (exec_of_twoRanges_holds (i := .bpack) rfl rfl hsrc hdst hl hh) hdst⟩⟩

/-- Settles O47: BUNPACK checks its packed source and its destination, then stores CNT unpacked bytes. -/
theorem bunpackUnpacksARange : Obligations.BunpackUnpacksARange := by
  refine ⟨selects_of_encode_eq Laws.RoundTrip.bunpack rfl, illegalUnless_of_withNoImm fun _ => rfl,
    fun s => ⟨exec_of_twoRanges_error (i := .bunpack) rfl, fun packed hsrc hdst hl hh => ?_⟩⟩
  obtain ⟨t, hexec, hframe, hrlen, hstores⟩ := exists_stores_of_exec_eq_store
    (exec_of_twoRanges_holds (i := .bunpack) rfl rfl hsrc hdst hl hh) hdst
  exact ⟨t, hexec, hframe, BitVec.eq_of_toNat_eq hrlen, hstores⟩

end Sys2Proof.Machine
end

section
/-! The proof of O27 (rules R191, R195): FRMCHK on a short frame, on a frame whose trailer is not the CRC of its body, and on one whose trailer is. -/

namespace Sys2Proof.Machine

theorem readRange_frmchk_short {s : State} (h : s.len.toNat < 5) (e : Byte) :
    readRange (.frmchk e) s = (0, 0) := congrArg (Prod.mk 0) (if_pos h)

theorem readRange_frmchk_long {s : State} (h : 5 ≤ s.len.toNat) (e : Byte) :
    readRange (.frmchk e) s = (0, s.len.toNat) := congrArg (Prod.mk 0) (if_neg (by omega))

theorem commandEffect_frmchk_short {s : State} (h : s.len.toNat < 5) (e : Byte)
    (bytes : List Byte) :
    commandEffect (.frmchk e) bytes s =
      { s with fres := .short, crcOk := false, exc := 0, err := .none } := if_pos h

section Trailer

variable {s : State} {body : List Byte} {lo hi : Byte} (h : 5 ≤ s.len.toNat)
include h

theorem commandEffect_frmchk_mismatch (hm : trailerMatches (crc16 body) lo hi = false)
    (e : Byte) :
    commandEffect (.frmchk e) (body ++ [lo, hi]) s = { s with
      fres := .crc, crcOk := false, exc := 0, crc := crc16 body, err := .none } := by
  rw [commandEffect, if_neg (by omega), trailerVerdict_append, hm]
  rfl

/-- With the CRC right, the verdict turns on the function code alone (rule R195). -/
theorem commandEffect_frmchk_match (hm : trailerMatches (crc16 body) lo hi = true)
    {station fc code : Byte} {more : List Byte} (hb : body = station :: fc :: code :: more)
    (e : Byte) :
    commandEffect (.frmchk e) (body ++ [lo, hi]) s = { s with
      fres := if fc = e ||| 0x80#8 then .exc else .ok
      exc := if fc = e ||| 0x80#8 then code else 0
      crcOk := true, crc := crc16 body, err := .none } := by
  have hfc : (body ++ [lo, hi]).getD 1 0#8 = fc := by rw [hb]; rfl
  have hcode : (body ++ [lo, hi]).getD 2 0#8 = code := by rw [hb]; rfl
  rw [commandEffect, if_neg (by omega), trailerVerdict_append, hm, hfc, hcode, if_pos rfl]
  split <;> rfl

end Trailer

theorem exec_frmchk_short {s : State} (h : s.len.toNat < 5) (e : Byte) :
    exec (.frmchk e) s =
      .next { s with fres := .short, crcOk := false, exc := 0, err := .none } := by
  have hleast := s.bufSize.least
  have hread := readRange_frmchk_short h e
  rw [exec_of_oneRange_holds (bytes := []) rfl rfl (by omega) (by rw [hread]; rfl)
    (by rw [hread]; exact holds_nil _ _), commandEffect_frmchk_short h]

theorem exec_frmchk_of_holds {s : State} {frame : List Byte} (h : 5 ≤ s.len.toNat)
    (hfit : s.len.toNat ≤ s.bufSize.val) (hl : frame.length = s.len.toNat)
    (hh : Holds s.buf 0 frame) (e : Byte) :
    exec (.frmchk e) s = .next (commandEffect (.frmchk e) frame s) := by
  have hread := readRange_frmchk_long h e
  exact exec_of_oneRange_holds rfl rfl (by omega) (by rw [hread]; exact hl)
    (by rw [hread]; exact hh)

/-- Settles O27: the length decides first, then whether the trailer is the CRC of the body, then the function code. -/
theorem frmchkChecksAFrame : Obligations.FrmchkChecksAFrame := by
  refine ⟨fun e => selects_of_encode_eq (Laws.RoundTrip.frmchk e) rfl,
    illegalUnless fun _ h => absurd trivial h, fun s e =>
      ⟨fun h => exec_of_oneRange_error rfl (by simpa using h), fun h => exec_frmchk_short h e, ?_⟩⟩
  intro station fc code more lo hi body hfit hlen hh
  have hbody : body.length = more.length + 3 := rfl
  have hlong : 5 ≤ s.len.toNat := by omega
  have hl : (body ++ [lo, hi]).length = s.len.toNat := by simpa using hlen.symm
  rw [exec_frmchk_of_holds hlong hfit hl hh]
  refine ⟨fun hne => ?_, fun hlo hhi => ?_⟩
  · have hm : trailerMatches (crc16 body) lo hi = false := by
      rw [trailerMatches_eq_decide, decide_eq_false hne]
    rw [commandEffect_frmchk_mismatch hlong hm]
  · have hm : trailerMatches (crc16 body) lo hi = true := by
      rw [trailerMatches_eq_decide, decide_eq_true ⟨hlo, hhi⟩]
    rw [commandEffect_frmchk_match hlong hm rfl]

end Sys2Proof.Machine
end

section
/-! The proof of O5 (rules R211 to R214): a command's checks alone decide the error it reports, before any byte of BUF is read. -/

namespace Sys2Proof.Machine

/-- A command one of whose checks fails reads no byte of BUF and sets ERR alone (rule R213). -/
theorem exec_of_commandError_ne_none {i : Instr} {s : State} (h : commandError i s ≠ .none) :
    exec i s = .next { s with err := commandError i s } := by
  rw [exec_eq, if_neg h]

/-- ERR after a command is the error its checks give, NONE among them (rules R213, R214). -/
theorem err_eq_commandError_of_exec {i : Instr} {s t : State} (h : exec i s = .next t) :
    t.err = commandError i s := by
  rcases exec_cases h with ⟨-, ht⟩ | ⟨hpass, bytes, -, -, ht⟩
  · rw [ht]
  · rw [ht, commandEffect_err, hpass]

/-- Settles O5: a failed check ends the command before it reads; a command that passes them has its effect, which sets ERR to NONE. -/
theorem commandErrorsArePreciseAndComplete : Obligations.CommandErrorsArePreciseAndComplete :=
  fun _ _ => ⟨exec_of_commandError_ne_none, fun _ => err_eq_commandError_of_exec⟩

end Sys2Proof.Machine
end

section
/-! The proofs of O2 and O3 (rules R95, R97, R99): a word that decodes to a command has that command's three fields, so it is the command's encoding. -/

namespace Sys2Proof.Machine

theorem roundTrip (i : Instr) : Laws.RoundTrip.Statement i := by
  cases i with
  | crcinit => exact Laws.RoundTrip.crcinit
  | crcbyte imm => exact Laws.RoundTrip.crcbyte imm
  | crcbuf => exact Laws.RoundTrip.crcbuf
  | crcapp => exact Laws.RoundTrip.crcapp
  | crcver => exact Laws.RoundTrip.crcver
  | frmchk imm => exact Laws.RoundTrip.frmchk imm
  | dec16 => exact Laws.RoundTrip.dec16
  | dec32 => exact Laws.RoundTrip.dec32
  | dec64 => exact Laws.RoundTrip.dec64
  | enc16 => exact Laws.RoundTrip.enc16
  | enc32 => exact Laws.RoundTrip.enc32
  | enc64 => exact Laws.RoundTrip.enc64
  | perm16 => exact Laws.RoundTrip.perm16
  | perm32 => exact Laws.RoundTrip.perm32
  | perm64 => exact Laws.RoundTrip.perm64
  | strenc fixed => exact Laws.RoundTrip.strenc fixed
  | strdec fixed => exact Laws.RoundTrip.strdec fixed
  | bpack => exact Laws.RoundTrip.bpack
  | bunpack => exact Laws.RoundTrip.bunpack

theorem decode_encode (i : Instr) : decode (encode i) = .ok i := (roundTrip i).1

theorem flag_imm8_eq {imm : Byte} (h : imm.extractLsb' 1 7 = 0#7) :
    (if imm.getLsbD 0 then 1#8 else 0#8) = imm := by
  rcases eq_zero_or_one_of_flagBits_eq_zero h with rfl | rfl <;> rfl

/-- The operand of a decoded command is the whole of IMM8 (rule R93). -/
theorem imm8_eq_of_decodeOp {i : Instr} {imm : Byte} (h : decodeOp i.op imm = .ok i) :
    i.imm8 = imm := by
  cases i with
  | crcbyte b | frmchk b => cases h; rfl
  | strenc fixed | strdec fixed =>
    obtain ⟨hbits, hfixed⟩ := withFlag_eq_ok.mp h
    cases hfixed
    exact flag_imm8_eq hbits
  | _ => exact (withNoImm_eq_ok.mp h).1.symm

theorem encode_eq_of_decode {w : Word} {i : Instr} (h : decode w = .ok i) : encode i = w := by
  obtain ⟨hrsv, hdec⟩ := decode_eq_ok.mp h
  have hop := (fields_of_decodeOp hdec).2
  rw [hop] at hdec
  rw [word_eq_append_fields w, hrsv, hop, ← imm8_eq_of_decodeOp hdec]
  rfl

/-- Settles O2: the fields of a word that decodes are those of the command's encoding, and every encoding decodes to its command. -/
theorem decodeInvertsEncode : Obligations.DecodeInvertsEncode :=
  fun _ i => ⟨encode_eq_of_decode, fun h => h ▸ decode_encode i⟩

/-- Settles O3: each word is the encoding of the command named beside it. -/
theorem specWordsDecodeToTheirCommands : Obligations.SpecWordsDecodeToTheirCommands :=
  ⟨decode_encode .crcinit, decode_encode (.crcbyte 0x64), decode_encode .crcapp,
    decode_encode (.frmchk 0x03), decode_encode (.frmchk 0xFF), decode_encode .dec16,
    decode_encode .enc32, decode_encode .perm32, decode_encode (.strenc true),
    decode_encode (.strdec false), decode_encode .bpack, decode_encode .bunpack⟩

end Sys2Proof.Machine
end

section
/-! What a completed command changes, said once over all commands: the registers each may write, and the bytes it stores. -/

namespace Sys2Proof.Machine

section Effect

/-! The frame of `commandEffect`: CRCVER and FRMCHK choose between updates of the same fields, and every other command is one update. -/

variable (bytes : List Byte) (s : State)

/-- The registers and the model's fields that no command writes. -/
theorem commandEffect_operands (i : Instr) :
    let t := commandEffect i bytes s
    t.bufSize = s.bufSize ∧ t.cfg = s.cfg ∧ t.src = s.src ∧ t.dst = s.dst ∧ t.cnt = s.cnt ∧
      t.aux = s.aux ∧ t.inputs = s.inputs ∧ t.replies = s.replies := by
  cases i with
  | crcver | frmchk =>
    simp only [commandEffect]
    (repeat' split) <;> simp only [and_self]
  | _ => exact ⟨rfl, rfl, rfl, rfl, rfl, rfl, rfl, rfl⟩

variable {i : Instr}

theorem commandEffect_len (h : i ≠ .crcapp) : (commandEffect i bytes s).len = s.len := by
  cases i with
  | crcapp => contradiction
  | crcver | frmchk =>
    simp only [commandEffect]
    (repeat' split) <;> rfl
  | _ => rfl

theorem commandEffect_crc (h : i ∉ [.crcinit, .crcbuf, .crcapp, .crcver])
    (hbyte : ∀ e, i ≠ .crcbyte e) (hfrm : ∀ e, i ≠ .frmchk e) :
    (commandEffect i bytes s).crc = s.crc := by
  cases i with
  | crcinit | crcbuf | crcapp | crcver => simp at h
  | crcbyte e => exact absurd rfl (hbyte e)
  | frmchk e => exact absurd rfl (hfrm e)
  | _ => rfl

theorem commandEffect_data (h : i ∉ [.dec16, .dec32, .dec64]) :
    (commandEffect i bytes s).data = s.data := by
  cases i with
  | dec16 | dec32 | dec64 => simp at h
  | crcver | frmchk =>
    simp only [commandEffect]
    (repeat' split) <;> rfl
  | _ => rfl

theorem commandEffect_rlen (h : i ∉ bufferCommands) :
    (commandEffect i bytes s).rlen = s.rlen := by
  cases i with
  | perm16 | perm32 | perm64 | strenc | strdec | bpack | bunpack => simp [bufferCommands] at h
  | crcver | frmchk =>
    simp only [commandEffect]
    (repeat' split) <;> rfl
  | _ => rfl

theorem commandEffect_crcOk (hver : i ≠ .crcver) (hfrm : ∀ e, i ≠ .frmchk e) :
    (commandEffect i bytes s).crcOk = s.crcOk := by
  cases i with
  | crcver => contradiction
  | frmchk e => exact absurd rfl (hfrm e)
  | _ => rfl

theorem commandEffect_fres_exc (hfrm : ∀ e, i ≠ .frmchk e) :
    (commandEffect i bytes s).fres = s.fres ∧ (commandEffect i bytes s).exc = s.exc := by
  cases i with
  | frmchk e => exact absurd rfl (hfrm e)
  | crcver =>
    rw [commandEffect]
    split <;> exact ⟨rfl, rfl⟩
  | _ => exact ⟨rfl, rfl⟩

/-- FRMCHK records an exception code only with the verdict EXC (rule R32). -/
theorem frmchk_exc_zero_unless_verdict_exc (e : Byte) :
    (commandEffect (.frmchk e) bytes s).fres = .exc ∨
      (commandEffect (.frmchk e) bytes s).exc = 0#8 := by
  rw [commandEffect]
  split
  · exact .inr rfl
  · split
    · split
      · exact .inl rfl
      · exact .inr rfl
    · exact .inr rfl

end Effect

section Output

/-! The bytes a completed command stores: as many as its `writeRange` has, at the position it names. -/

variable {i : Instr} {s : State} {bytes : List Byte}

theorem writeRange_position_of_bufferCommand (hi : i ∈ bufferCommands) :
    (writeRange i s).1 = s.dst.toNat := by
  cases i with
  | perm16 | perm32 | perm64 | bpack | bunpack => rfl
  | strenc fixed | strdec fixed => cases fixed <;> rfl
  | _ => simp [bufferCommands] at hi

theorem rlen_of_bufferCommand (hi : i ∈ bufferCommands) (hc : commandError i s = .none)
    (hl : bytes.length = (readRange i s).2) :
    (commandEffect i bytes s).rlen = BitVec.ofNat 16 (writeRange i s).2 := by
  obtain ⟨out, -, h, -⟩ := exists_common_output rfl rfl rfl hi hc hl
  rw [h, commandEffect_store_rlen]

theorem exists_output (hc : commandError i s = .none) (hl : bytes.length = (readRange i s).2) :
    ∃ out, out.length = (writeRange i s).2 ∧
      (commandEffect i bytes s).buf = s.buf.writeAll (writeRange i s).1 out := by
  by_cases hi : i ∈ bufferCommands
  · obtain ⟨out, hout, h, -⟩ := exists_common_output rfl rfl rfl hi hc hl
    exact ⟨out, hout, by rw [h, writeRange_position_of_bufferCommand hi]; rfl⟩
  · cases i with
    | perm16 | perm32 | perm64 | strenc | strdec | bpack | bunpack => simp [bufferCommands] at hi
    | crcapp => exact ⟨[_, _], rfl, rfl⟩
    | enc16 | enc32 | enc64 => exact ⟨_, length_encodeScalar _ _ s.ws s.mws, rfl⟩
    | crcver | frmchk =>
      refine ⟨[], rfl, ?_⟩
      simp only [commandEffect]
      (repeat' split) <;> rfl
    | _ => exact ⟨[], rfl, rfl⟩

/-- A completed command stores inside BUF (rule R78). -/
theorem writeRange_fits (hc : commandError i s = .none) :
    (writeRange i s).1 + (writeRange i s).2 ≤ s.bufSize.val := by
  have hr := (commandError_eq_none.mp hc).1
  cases i with
  | perm16 | perm32 | perm64 | strenc | strdec | bpack | bunpack =>
    exact ((rangesFit_of_twoRanges rfl).mp hr).2
  | crcapp | enc16 | enc32 | enc64 => simpa [rangesFit, checkedRanges, writeRange] using hr
  | _ => exact Nat.zero_le _

end Output

end Sys2Proof.Machine
end

section
/-! The proofs of O6, O7, O8 and O9 (rules R25 to R39, R67, R213, R214): the outcomes over all commands. -/

namespace Sys2Proof.Machine

/-- Settles O6: a written source range holds some bytes, and the command has its effect on them. -/
theorem readyCommandsComplete : Obligations.ReadyCommandsComplete := by
  intro i s hc hready
  obtain ⟨bytes, hl, hh⟩ := holds_of_written hready
  exact ⟨_, exec_of_holds hc hl hh, commandEffect_err i bytes s⟩

theorem exec_eq_fault_iff {i : Instr} {s : State} {p : Nat} :
    exec i s = .fault (.unwritten p) ↔
      commandError i s = .none ∧ FirstUnwritten s.buf (readRange i s).1 (readRange i s).2 p := by
  constructor
  · intro h
    rw [exec_eq] at h
    split at h
    · next hc =>
      rcases reading_memRead_cases h with ⟨bytes, -, -, ht⟩ | ⟨q, hq, hp⟩
      · cases ht
      · cases hp
        exact ⟨hc, hq⟩
    · cases h
  · rintro ⟨hc, hp⟩
    rw [exec_eq, if_pos hc, reading_memRead_of_firstUnwritten _ hp]

theorem exec_ne_refused (i : Instr) (s : State) (r : Refusal) : exec i s ≠ .refused r := by
  intro h
  rw [exec_eq] at h
  split at h
  · rcases reading_memRead_cases h with ⟨bytes, -, -, ht⟩ | ⟨q, -, hp⟩
    · cases ht
    · cases hp
  · cases h

/-- A host read of a byte of BUF (rules R63, R67). -/
theorem access_readByte {s : State} {n : Nat} (h : n < s.bufSize.val) :
    access (.read .w8 (BitVec.ofNat 17 (0x10000 + n))) s =
      reading (bufRead s n) fun b => .next (s.reply (.data (.b8 b))) := by
  simp only [access, hostRead, windowAt_offset h s.bufSize.most]
  cases bufRead s n <;> rfl

/-- Settles O7: a command that passes its checks goes on to read its source range, and a host read of BUF reads one byte. -/
theorem readingAnUnwrittenByteFaults : Obligations.ReadingAnUnwrittenByteFaults := by
  refine ⟨fun i s p => exec_eq_fault_iff.symm, exec_ne_refused, fun s n hn => ?_⟩
  rw [access_readByte hn]
  cases h : s.buf.read n with
  | none => simp [bufRead, h]
  | some b => simp [bufRead, h]

/-- Settles O8: an error changes ERR alone, and a completion changes what the command's effect does. -/
theorem commandsWriteOnlyTheirRegisters : Obligations.CommandsWriteOnlyTheirRegisters := by
  intro i s t h
  rcases exec_cases h with ⟨-, rfl⟩ | ⟨-, bytes, -, -, rfl⟩
  · simp only [and_self, implies_true]
  · refine ⟨commandEffect_operands bytes s i, commandEffect_len bytes s,
      commandEffect_crc bytes s, commandEffect_data bytes s, fun hi henc hdec => ?_,
      commandEffect_crcOk bytes s, commandEffect_fres_exc bytes s⟩
    refine commandEffect_rlen bytes s fun hmem => ?_
    simp only [bufferCommands, List.mem_cons, List.not_mem_nil, or_false, henc, hdec] at hi hmem
    tauto

/-- Settles O9: a completed command stores its output over its whole destination range. -/
theorem commandsWriteOnlyTheirRange : Obligations.CommandsWriteOnlyTheirRange := by
  intro i s t h
  rcases exec_cases h with ⟨hc, rfl⟩ | ⟨hc, bytes, hl, -, rfl⟩
  · exact ⟨fun he => absurd he hc, fun _ _ => rfl⟩
  · refine ⟨fun _ => ?_, fun he => absurd (commandEffect_err i bytes s) he⟩
    obtain ⟨out, hout, hbuf⟩ := exists_output hc hl
    obtain ⟨hholds, hframe⟩ := stores_writeAll s.buf (writeRange i s).1 out
    rw [hbuf, ← hout]
    exact ⟨hframe, written_of_holds hholds⟩

end Sys2Proof.Machine
end

section
/-! The proofs of O10, O11 and O12 (rules R6, R32, R38, R39, R78): the invariant and BUF_SIZE over every step, by the cases of `step_property`. -/

namespace Sys2Proof.Machine

theorem rlen_commandEffect_le {i : Instr} {s : State} {bytes : List Byte}
    (hc : commandError i s = .none) (hl : bytes.length = (readRange i s).2)
    (h : s.rlen.toNat ≤ s.bufSize.val) :
    (commandEffect i bytes s).rlen.toNat ≤ s.bufSize.val := by
  by_cases hi : i ∈ bufferCommands
  · have hfit : (writeRange i s).2 ≤ s.bufSize.val :=
      (Nat.le_add_left _ _).trans (writeRange_fits hc)
    rw [rlen_of_bufferCommand hi hc hl, toNat_ofNat_of_le_bufSize hfit]
    exact hfit
  · rwa [commandEffect_rlen bytes s hi]

theorem exc_zero_unless_verdict_exc_commandEffect (i : Instr) (bytes : List Byte) {s : State}
    (h : s.fres = .exc ∨ s.exc = 0#8) :
    (commandEffect i bytes s).fres = .exc ∨ (commandEffect i bytes s).exc = 0#8 := by
  by_cases hi : ∃ e, i = .frmchk e
  · obtain ⟨e, rfl⟩ := hi
    exact frmchk_exc_zero_unless_verdict_exc bytes s e
  · obtain ⟨hfres, hexc⟩ := commandEffect_fres_exc bytes s (not_exists.mp hi)
    rwa [hfres, hexc]

theorem exec_keeps_wf {i : Instr} {s t : State} (h : s.wf = true) (he : exec i s = .next t) :
    t.wf = true := by
  rcases exec_cases he with ⟨-, rfl⟩ | ⟨hc, bytes, hl, -, rfl⟩
  · exact h
  · obtain ⟨hbuf, hwithin, hrlen, hexc⟩ := (wf_iff s).mp h
    obtain ⟨out, hout, heq⟩ := exists_output hc hl
    rw [wf_iff, (commandEffect_operands bytes s i).1, heq]
    exact ⟨wf_writeAll _ out hbuf, within_writeAll (hout ▸ writeRange_fits hc) hwithin,
      rlen_commandEffect_le hc hl hrlen, exc_zero_unless_verdict_exc_commandEffect i bytes hexc⟩

theorem resetOf_wf (size : BufSize) : (State.resetOf size).wf = true := by
  rw [wf_iff]
  exact ⟨rfl, rfl, Nat.zero_le _, .inr rfl⟩

theorem regStore_keeps_wf {s : State} (h : s.wf = true) (v : Word) (r : Reg) :
    (s.regStore v r).wf = true := by
  cases r <;> exact h

/-- Settles O10: of all that a step can do, only commands, byte writes and reset touch what the invariant speaks of. -/
theorem everyStepKeepsTheInvariant : Obligations.EveryStepKeepsTheInvariant := by
  intro s t h hstep
  refine step_property (fun _ t => t.wf = true) hstep h ?resets ?answers ?stores ?bytes ?commands
    ?illegal
  case resets => exact fun _ => resetOf_wf s.bufSize
  case answers => exact fun _ _ => h
  case stores => exact fun rest v r => regStore_keeps_wf (s := { s with inputs := rest }) h v r
  case bytes =>
    intro rest i b hi
    obtain ⟨hbuf, hwithin, hrest⟩ := (wf_iff s).mp h
    exact (wf_iff _).mpr ⟨wf_write i b hbuf, within_write b hi hwithin, hrest⟩
  case commands =>
    intro rest i u he
    exact (exec_keeps_wf (s := { s with inputs := rest }) h he : u.wf = true)
  case illegal => exact fun _ => h

/-- Settles O11: nothing is written, and RLEN and EXC are 0. -/
theorem resetHasTheInvariant : Obligations.ResetHasTheInvariant :=
  ⟨resetOf_wf, resetOf_wf BufSize.standard⟩

theorem exec_bufSize {i : Instr} {s t : State} (h : exec i s = .next t) :
    t.bufSize = s.bufSize := by
  obtain ⟨⟨hsize, -⟩, -⟩ := commandsWriteOnlyTheirRegisters i s t h
  exact hsize

theorem regStore_bufSize (s : State) (v : Word) (r : Reg) :
    (s.regStore v r).bufSize = s.bufSize := by
  cases r <;> rfl

/-- Settles O12: neither a command nor a register store writes BUF_SIZE, and reset keeps it. -/
theorem bufSizeNeverChanges : Obligations.BufSizeNeverChanges := by
  intro s t hstep
  refine step_property (fun s t => t.bufSize = s.bufSize) hstep rfl ?resets ?answers ?stores ?bytes
    ?commands ?illegal
  case stores => exact fun rest v r => regStore_bufSize { s with inputs := rest } v r
  case commands =>
    intro rest i u he
    exact (exec_bufSize (s := { s with inputs := rest }) he : u.bufSize = s.bufSize)
  all_goals intros; rfl

end Sys2Proof.Machine
end

section
/-! The proof of O14 (rules R22 to R24, R145, R170): CFG takes no part in a command's checks or its read, so the flags that a command depends on are those its effect reads. -/

namespace Sys2Proof.Machine

theorem memRead_congr {s s' : State} (h : s'.buf = s.buf) (a n : Nat) :
    memRead s' a n = memRead s a n := by
  induction n generalizing a with
  | zero => rfl
  | succ n ih => simp only [memRead, bufRead, h, ih]

theorem readRange_setCfg (i : Instr) (s : State) (c : BitVec 3) :
    readRange i { s with cfg := c } = readRange i s := by
  cases i <;> rfl

theorem commandError_setCfg (i : Instr) (s : State) (c : BitVec 3) :
    commandError i { s with cfg := c } = commandError i s := by
  cases i with
  | strenc fixed | strdec fixed => cases fixed <;> rfl
  | _ => rfl

/-- A command does the same with CFG changed if its effect does. -/
theorem exec_setCfg {i : Instr} {s : State} {c : BitVec 3}
    (h : ∀ bytes, commandEffect i bytes { s with cfg := c } =
      { commandEffect i bytes s with cfg := c }) :
    exec i { s with cfg := c } = onNext (fun t => { t with cfg := c }) (exec i s) := by
  rw [exec_eq, exec_eq, commandError_setCfg, readRange_setCfg,
    memRead_congr (s := s) (s' := { s with cfg := c }) rfl]
  split
  · cases memRead s (readRange i s).1 (readRange i s).2 with
    | ok bytes => rw [reading_ok, reading_ok, h]; rfl
    | error f => rfl
  · rfl

/-- With one word to a scalar the multi-word swap has no part (rule R145). -/
theorem perm_one (bytes : List Byte) (ws mws : Bool) :
    perm 1 bytes ws mws = perm 1 bytes ws false := by
  rw [perm_of_not_multiWord (by simp), perm_of_not_multiWord (by simp)]

theorem permArray_one (m : Nat) (bytes : List Byte) (ws mws : Bool) :
    permArray 1 m bytes ws mws = permArray 1 m bytes ws false := by
  induction m generalizing bytes with
  | zero => rfl
  | succ m ih => rw [permArray, permArray, perm_one, ih]

section Flags

variable {s : State} {c : BitVec 3} {i : Instr}

theorem exec_setCfg_of_word (hi : i ∈ [Instr.dec16, .enc16, .perm16])
    (hws : c.getLsbD 0 = s.cfg.getLsbD 0) :
    exec i { s with cfg := c } = onNext (fun t => { t with cfg := c }) (exec i s) := by
  have hws' : State.ws { s with cfg := c } = s.ws := hws
  refine exec_setCfg fun bytes => ?_
  cases i with
  | dec16 => simp only [commandEffect, decodeScalar, perm_one, hws']
  | enc16 => simp only [commandEffect, commandEffect.encEffect, encodeScalar, perm_one, hws']
  | perm16 => simp only [commandEffect, commandEffect.store, permArray_one, hws']
  | _ => simp at hi

theorem exec_setCfg_of_multiWord (hi : i ∈ [Instr.dec32, .dec64, .enc32, .enc64, .perm32, .perm64])
    (hws : c.getLsbD 0 = s.cfg.getLsbD 0) (hmws : c.getLsbD 1 = s.cfg.getLsbD 1) :
    exec i { s with cfg := c } = onNext (fun t => { t with cfg := c }) (exec i s) := by
  have hws' : State.ws { s with cfg := c } = s.ws := hws
  have hmws' : State.mws { s with cfg := c } = s.mws := hmws
  refine exec_setCfg fun bytes => ?_
  cases i with
  | dec32 | dec64 => simp only [commandEffect, hws', hmws']
  | enc32 | enc64 => simp only [commandEffect, commandEffect.encEffect, hws', hmws']
  | perm32 | perm64 => simp only [commandEffect, commandEffect.store, hws', hmws']
  | _ => simp at hi

theorem exec_setCfg_of_string
    (hi : i ∈ [Instr.strenc false, .strenc true, .strdec false, .strdec true])
    (hsws : c.getLsbD 2 = s.cfg.getLsbD 2) :
    exec i { s with cfg := c } = onNext (fun t => { t with cfg := c }) (exec i s) := by
  have hsws' : State.sws { s with cfg := c } = s.sws := hsws
  refine exec_setCfg fun bytes => ?_
  cases i with
  | strenc | strdec =>
    simp only [commandEffect, commandEffect.store, hsws']
    rfl
  | _ => simp at hi

theorem exec_setCfg_of_noFlag
    (hi : i ∈ [Instr.crcinit, .crcbuf, .crcapp, .crcver, .bpack, .bunpack]) :
    exec i { s with cfg := c } = onNext (fun t => { t with cfg := c }) (exec i s) := by
  refine exec_setCfg fun bytes => ?_
  cases i with
  | crcinit | crcbuf | crcapp | bpack | bunpack => rfl
  | crcver =>
    simp only [commandEffect]
    split <;> rfl
  | _ => simp at hi

theorem exec_setCfg_frmchk (e : Byte) :
    exec (.frmchk e) { s with cfg := c } =
      onNext (fun t => { t with cfg := c }) (exec (.frmchk e) s) := by
  refine exec_setCfg fun bytes => ?_
  simp only [commandEffect]
  (repeat' split) <;> rfl

end Flags

/-- Settles O14: the effect of a command names no flags but its family's, and a scalar of one word is the same under either MWS. -/
theorem commandsReadOnlyTheirFlags : Obligations.CommandsReadOnlyTheirFlags :=
  fun _ _ => ⟨fun _ => exec_setCfg_of_word, fun _ => exec_setCfg_of_multiWord,
    fun _ => exec_setCfg_of_string, fun _ => exec_setCfg_of_noFlag,
    fun e => ⟨exec_setCfg (i := .crcbyte e) fun _ => rfl, exec_setCfg_frmchk e⟩⟩

end Sys2Proof.Machine
end

section
/-! The proofs of O15, O16, O20 and O23 to O26 (rules R111, R112, R115 to R120). A frame passes exactly when the CRC over all of it is 0; the fold of the CRC is injective in its initial value and its step in the byte, so no change of one byte keeps the CRC. -/

namespace Sys2Proof.Machine

/-- Settles O15: the fold, one byte longer. -/
theorem crcIsTheFoldOfItsStep : Obligations.CrcIsTheFoldOfItsStep :=
  fun init bytes b => ⟨rfl, crc_append bytes [b] init, rfl, rfl⟩

/-- Settles O16, by evaluation. -/
theorem crcCheckValues : Obligations.CrcCheckValues := by
  unfold Obligations.CrcCheckValues
  decide +kernel

/-- The removed bit comes back as bit 15, the top bit of the polynomial, so a shift loses nothing. -/
theorem crcShift_injective : Function.Injective crcShift := by
  intro c d h
  have hbit (k : Nat) : (crcShift c).getLsbD k = (crcShift d).getLsbD k := by rw [h]
  simp only [getLsbD_crcShift] at hbit
  have hlow : c.getLsbD 0 = d.getLsbD 0 := by simpa using hbit 15
  refine BitVec.eq_of_getLsbD_eq fun k hk => ?_
  cases k with
  | zero => exact hlow
  | succ k =>
    have hk' : k < 15 := by omega
    simpa only [hlow, hk', decide_true, Bool.true_and, Bool.xor_left_inj] using hbit k

theorem crcStep_eq_crcStep_iff {c d : Half} {a b : Byte} :
    crcStep c a = crcStep d b ↔ c ^^^ a.setWidth 16 = d ^^^ b.setWidth 16 := by
  simp only [crcStep_eq_crcShifts, crcShift_injective.eq_iff]

theorem crcStep_left_injective (b : Byte) : Function.Injective fun c => crcStep c b :=
  fun _ _ h => (BitVec.xor_left_inj _).mp (crcStep_eq_crcStep_iff.mp h)

theorem crcStep_right_injective (c : Half) : Function.Injective (crcStep c) := by
  intro a b h
  have hw := (BitVec.xor_right_inj _).mp (crcStep_eq_crcStep_iff.mp h)
  simpa using congrArg (BitVec.setWidth 8) hw

theorem crc_injective (bytes : List Byte) : Function.Injective (crc bytes) := by
  induction bytes with
  | nil => exact fun _ _ h => h
  | cons b bytes ih => exact fun _ _ h => crcStep_left_injective b (ih h)

/-- A change of one byte changes the CRC. -/
theorem crc_set_ne {bytes : List Byte} {p : Nat} (hp : p < bytes.length) {b : Byte}
    (hb : b ≠ bytes[p]) (init : Half) : crc (bytes.set p b) init ≠ crc bytes init := by
  rw [List.set_eq_take_append_cons_drop, if_pos hp]
  conv_rhs => rw [← List.take_append_drop p bytes, List.drop_eq_getElem_cons hp]
  rw [crc_append, crc_append]
  exact fun h => hb (crcStep_right_injective _ (crc_injective _ h))

theorem byte_setWidth_eq_append (b : Byte) : b.setWidth 16 = 0#8 ++ b :=
  BitVec.setWidth_eq_append (by omega)

theorem crcStep_eq_zero_iff {c : Half} {b : Byte} : crcStep c b = 0#16 ↔ c = 0#8 ++ b := by
  have hzero : crcStep 0#16 0#8 = 0#16 := by decide
  rw [← hzero, crcStep_eq_crcStep_iff, byte_setWidth_eq_append b]
  exact BitVec.xor_eq_zero_iff

/-- Over a low byte of 0 the eight shifts bring no polynomial in. -/
theorem crcStep_of_low_zero (hi : Byte) : crcStep (hi ++ 0#8) 0#8 = 0#8 ++ hi := by
  revert hi
  decide +kernel

theorem half_eq_append_bytes (c : Half) : c = crcHi c ++ crcLo c := by
  rw [crcHi, crcLo, BitVec.extractLsb'_append_extractLsb'_eq_extractLsb' (by rfl),
    BitVec.extractLsb'_eq_self]

/-- Two more bytes take a CRC to 0 exactly when they are its own two bytes, low byte first (rule R119). -/
theorem crc_trailer_eq_zero_iff (c : Half) (lo hi : Byte) :
    crc [lo, hi] c = 0#16 ↔ trailerMatches c lo hi = true :=
  calc crcStep (crcStep c lo) hi = 0#16
    _ ↔ crcStep c lo = crcStep (hi ++ 0#8) 0#8 := by
      rw [crcStep_eq_zero_iff, crcStep_of_low_zero]
    _ ↔ (crcHi c ++ crcLo c) ^^^ (0#8 ++ lo) = (hi ++ 0#8) ^^^ (0#8 ++ 0#8) := by
      rw [crcStep_eq_crcStep_iff, ← half_eq_append_bytes, byte_setWidth_eq_append,
        byte_setWidth_eq_append]
    _ ↔ trailerMatches c lo hi = true := by
      rw [BitVec.xor_append, BitVec.xor_append, bitVec_append_eq_append_iff]
      rw [BitVec.xor_left_inj, BitVec.xor_self, BitVec.xor_eq_zero_iff, trailerMatches,
        Bool.and_eq_true, beq_iff_eq, beq_iff_eq, and_comm, eq_comm, @eq_comm _ (crcHi c)]

theorem crc16_append_trailer_eq_zero_iff (body : List Byte) (lo hi : Byte) :
    crc16 (body ++ [lo, hi]) = 0#16 ↔ trailerMatches (crc16 body) lo hi = true := by
  rw [← crc_trailer_eq_zero_iff, crc16, crc_append]
  rfl

theorem trailerMatches_own_bytes (c : Half) : trailerMatches c (crcLo c) (crcHi c) = true := by
  simp [trailerMatches]

theorem crc16_append_own_crc (bytes : List Byte) :
    crc16 (bytes ++ [crcLo (crc16 bytes), crcHi (crc16 bytes)]) = 0#16 :=
  (crc16_append_trailer_eq_zero_iff _ _ _).mpr (trailerMatches_own_bytes _)

/-- A frame passes exactly when the CRC over all of it is 0 (rule R119). -/
theorem trailerVerdict_iff {frame : List Byte} (h : 2 ≤ frame.length) :
    (trailerVerdict frame).2 = true ↔ crc16 frame = 0#16 := by
  obtain ⟨body, lo, hi, rfl⟩ := exists_body h
  rw [trailerVerdict_append, crc16_append_trailer_eq_zero_iff]

/-- One byte of a held range written over. -/
theorem holds_write_set {m : Memory} {a k : Nat} {bytes : List Byte} (h : Holds m a bytes)
    (hk : k < bytes.length) (b : Byte) : Holds (m.write (a + k) b) a (bytes.set k b) := by
  intro j c hj
  rw [read_write]
  rw [List.getElem?_set] at hj
  by_cases hjk : k = j
  · subst hjk
    rw [if_pos rfl]
    rwa [if_pos rfl, if_pos hk] at hj
  · rw [if_neg hjk] at hj
    rw [if_neg (by omega)]
    exact h j c hj

section Crcver

variable {s : State} {frame : List Byte}

theorem exec_crcver_of_holds (h : 2 ≤ s.len.toNat) (hfit : s.len.toNat ≤ s.bufSize.val)
    (hl : frame.length = s.len.toNat) (hh : Holds s.buf 0 frame) :
    exec .crcver s = .next { s with
      crcOk := (trailerVerdict frame).2, crc := (trailerVerdict frame).1, err := .none } := by
  have hread := readRange_crcver_long h
  rw [exec_of_oneRange_holds (bytes := frame) rfl rfl (by omega) (by rw [hread]; exact hl)
    (by rw [hread]; exact hh), commandEffect, if_neg (by omega)]

/-- CRCVER completes on a frame that fits, and passes it exactly when its CRC is 0 (rules R117, R119). -/
theorem exists_crcver_of_holds (h : 2 ≤ s.len.toNat) (hfit : s.len.toNat ≤ s.bufSize.val)
    (hl : frame.length = s.len.toNat) (hh : Holds s.buf 0 frame) :
    ∃ t, exec .crcver s = .next t ∧ t.err = .none ∧ t.buf = s.buf ∧
      (t.crcOk = true ↔ crc16 frame = 0#16) :=
  ⟨_, exec_crcver_of_holds h hfit hl hh, rfl, rfl, trailerVerdict_iff (by omega)⟩

end Crcver

theorem fits_of_oneRange {i : Instr} {s : State} {a n : Nat} (hr : checkedRanges i s = [(a, n)])
    (h : commandError i s = .none) : a + n ≤ s.bufSize.val := by
  simpa [rangesFit, hr] using (commandError_eq_none.mp h).1

/-- BUF[0..LEN) holds a frame of at least 2 bytes that fits and passes: the CRC over all of it is 0. -/
structure PassingFrame (s : State) (frame : List Byte) : Prop where
  two_le : 2 ≤ s.len.toNat
  fits : s.len.toNat ≤ s.bufSize.val
  length_eq : frame.length = s.len.toNat
  holds : Holds s.buf 0 frame
  crc_eq_zero : crc16 frame = 0#16

theorem exists_passingFrame_of_crcver {s t : State} (ht : exec .crcver s = .next t)
    (he : t.err = .none) (hok : t.crcOk = true) : ∃ frame, PassingFrame s frame := by
  rcases exec_cases ht with ⟨hc, rfl⟩ | ⟨hc, frame, hl, hh, rfl⟩
  · exact absurd he hc
  by_cases hlen : s.len.toNat < 2
  · rw [commandEffect_crcver_short hlen] at hok
    cases hok
  · have hlong : 2 ≤ s.len.toNat := by omega
    have hfit : 0 + s.len.toNat ≤ s.bufSize.val := fits_of_oneRange rfl hc
    rw [readRange_crcver_long hlong] at hl hh
    rw [commandEffect, if_neg hlen] at hok
    exact ⟨frame, hlong, by omega, hl, hh, (trailerVerdict_iff (by omega)).mp hok⟩

/-- With one byte changed, the frame that BUF holds no longer passes (rules R120, R196 (b)). -/
theorem PassingFrame.exists_changed {s : State} {frame : List Byte} (h : PassingFrame s frame)
    {p : Nat} {b b' : Byte} (hp : p < s.len.toNat) (hb : s.buf.read p = some b) (hne : b' ≠ b) :
    ∃ frame' : List Byte, frame'.length = s.len.toNat ∧ Holds (s.buf.write p b') 0 frame' ∧
      crc16 frame' ≠ 0#16 := by
  have hlt : p < frame.length := h.length_eq ▸ hp
  have hread := h.holds p frame[p] (List.getElem?_eq_getElem hlt)
  rw [Nat.zero_add, hb, Option.some.injEq] at hread
  refine ⟨frame.set p b', by rw [List.length_set, h.length_eq], ?_, ?_⟩
  · simpa using holds_write_set h.holds hlt b'
  · rw [← h.crc_eq_zero]
    exact crc_set_ne hlt (hread ▸ hne) _

/-- Settles O20: the bytes of the range are those of its two pieces, and the CRC of a concatenation continues from that of its first part. -/
theorem crcbufOverASplitRange : Obligations.CrcbufOverASplitRange := by
  intro s t m n hmn ht he
  rcases exec_cases ht with ⟨hc, rfl⟩ | ⟨hc, bytes, hl, hh, rfl⟩
  · exact absurd he hc
  have hfit : s.src.toNat + s.cnt.toNat ≤ s.bufSize.val := fits_of_oneRange rfl hc
  obtain ⟨-, -, hcrcbuf⟩ := crcbufFoldsARange
  change bytes.length = s.cnt.toNat at hl
  change Holds s.buf s.src.toNat bytes at hh
  have hfirst : (bytes.take m.toNat).length = m.toNat := by rw [List.length_take]; omega
  have hrest : (bytes.drop m.toNat).length = n.toNat := by rw [List.length_drop]; omega
  have hsrc : (BitVec.ofNat 16 (s.src.toNat + m.toNat)).toNat = s.src.toNat + m.toNat :=
    toNat_ofNat_of_le_bufSize (size := s.bufSize) (by omega)
  rw [← List.take_append_drop m.toNat bytes, holds_append, hfirst] at hh
  refine ⟨_, _, (hcrcbuf _).2 (bytes.take m.toNat) ?_ hfirst hh.1,
    (hcrcbuf _).2 (bytes.drop m.toNat) ?_ hrest ?_, rfl, rfl, ?_⟩
  · change s.src.toNat + m.toNat ≤ s.bufSize.val
    omega
  · rw [hsrc]
    change s.src.toNat + m.toNat + n.toNat ≤ s.bufSize.val
    omega
  · rw [hsrc]
    exact hh.2
  · rw [← crc_append, List.take_append_drop]
    rfl

/-- A completed CRCAPP leaves a frame that fits and ends in its own CRC (rule R116). -/
theorem exists_frame_of_crcapp {s t : State} (ht : exec .crcapp s = .next t)
    (he : t.err = .none) :
    ∃ body, t.len.toNat = body.length + 2 ∧ t.len.toNat ≤ t.bufSize.val ∧
      Holds t.buf 0 (body ++ [crcLo (crc16 body), crcHi (crc16 body)]) := by
  rcases exec_cases ht with ⟨hc, rfl⟩ | ⟨hc, body, hl, hh, rfl⟩
  · exact absurd he hc
  change body.length = s.len.toNat at hl
  have hfit : 0 + (s.len.toNat + 2) ≤ s.bufSize.val := fits_of_oneRange rfl hc
  rw [Nat.zero_add] at hfit
  have hlen : (commandEffect .crcapp body s).len.toNat = s.len.toNat + 2 :=
    toNat_ofNat_of_le_bufSize hfit
  obtain ⟨htrailer, hframe⟩ :=
    stores_writeAll s.buf s.len.toNat [crcLo (crc16 body), crcHi (crc16 body)]
  refine ⟨body, by rw [hlen, hl], by rw [hlen]; exact hfit, holds_append.mpr ⟨?_, ?_⟩⟩
  · exact holds_congr (fun p _ hp => hframe p (.inl (by omega))) hh
  · rw [Nat.zero_add, hl]
    exact htrailer

/-- Settles O23: the CRC over the frame that CRCAPP leaves is 0, so it passes. -/
theorem appendedCrcVerifies : Obligations.AppendedCrcVerifies := by
  intro s t ht he
  obtain ⟨body, hlen, hfit, hh⟩ := exists_frame_of_crcapp ht he
  obtain ⟨u, hu, herr, hbuf, hok⟩ :=
    exists_crcver_of_holds (by omega) hfit (by simpa using hlen.symm) hh
  exact ⟨u, hu, herr, hok.mpr (crc16_append_own_crc body), hbuf⟩

/-- Settles O24: the trailer matches exactly when its two bytes take the CRC of the body to 0. -/
theorem crcResidueIsZero : Obligations.CrcResidueIsZero := by
  refine ⟨crc16_append_own_crc, fun s frame hlong hfit hl hh => ?_⟩
  obtain ⟨t, ht, herr, -, hok⟩ := exists_crcver_of_holds hlong hfit hl hh
  exact ⟨t, ht, herr, hok⟩

/-- Settles O25: the CRC over the frame that the first CRCAPP leaves is 0, and its two bytes are 00 00. -/
theorem secondCrcappAppendsZeros : Obligations.SecondCrcappAppendsZeros := by
  intro s t u ht he hu heu
  obtain ⟨body, hlen, -, hh⟩ := exists_frame_of_crcapp ht he
  have hl : (body ++ [crcLo (crc16 body), crcHi (crc16 body)]).length = t.len.toNat := by
    simpa using hlen.symm
  obtain ⟨-, rfl⟩ := eq_commandEffect_of_completes (i := .crcapp) hl hh hu heu
  rw [commandEffect, crc16_append_own_crc]
  exact ⟨stores_writeAll t.buf t.len.toNat [0#8, 0#8], rfl⟩

theorem xor_bit_ne {b : Byte} {j : Nat} (hj : j < 8) : b ^^^ (1#8 <<< j) ≠ b := by
  intro h
  have hbit := congrArg (fun x : Byte => x.getLsbD j) h
  simp [hj] at hbit

/-- Settles O26: a flip changes one byte, so the CRC over the frame is no longer 0; and two frames of one length can each end in their own CRC. -/
theorem singleBitFlipsAreDetected : Obligations.SingleBitFlipsAreDetected := by
  refine ⟨fun s t p j b ht he hok hp hj hb => ?_,
    [0#8], [1#8], _, _, _, _, rfl, by simp, trailerMatches_own_bytes _, trailerMatches_own_bytes _⟩
  obtain ⟨frame, hpass⟩ := exists_passingFrame_of_crcver ht he hok
  obtain ⟨frame', hl, hh, hcrc⟩ := hpass.exists_changed hp hb (xor_bit_ne hj)
  obtain ⟨u, hu, herr, -, hok'⟩ := exists_crcver_of_holds
    (s := { s with buf := s.buf.write p (b ^^^ (1#8 <<< j)) }) hpass.two_le hpass.fits hl hh
  exact ⟨u, hu, herr, Bool.eq_false_iff.mpr fun h => hcrc (hok'.mp h)⟩

end Sys2Proof.Machine
end

section
/-! The proofs of O28 and O29 (rules R192, R196 (b)): a changed frame under FRMCHK, and the table of the exception codes. -/

namespace Sys2Proof.Machine

theorem exists_passingFrame_of_frmchk {s t : State} {e : Byte} (ht : exec (.frmchk e) s = .next t)
    (he : t.err = .none) (hok : t.crcOk = true) :
    5 ≤ s.len.toNat ∧ ∃ frame, PassingFrame s frame := by
  rcases exec_cases ht with ⟨hc, rfl⟩ | ⟨hc, frame, hl, hh, rfl⟩
  · exact absurd he hc
  by_cases hlen : s.len.toNat < 5
  · rw [commandEffect_frmchk_short hlen] at hok
    cases hok
  · have hlong : 5 ≤ s.len.toNat := by omega
    have hfit : 0 + s.len.toNat ≤ s.bufSize.val := fits_of_oneRange rfl hc
    rw [readRange_frmchk_long hlong] at hl hh
    have hverdict : (trailerVerdict frame).2 = true := by
      by_contra hbad
      rw [commandEffect, if_neg hlen, if_neg hbad] at hok
      cases hok
    have hframe : 2 ≤ frame.length := by rw [hl]; omega
    exact ⟨hlong, frame, by omega, by omega, hl, hh, (trailerVerdict_iff hframe).mp hverdict⟩

/-- Settles O28: the CRC over the changed frame is not 0, so its trailer does not match. -/
theorem singleByteChangesFailTheFrameCheck : Obligations.SingleByteChangesFailTheFrameCheck := by
  intro s t e b b' p ht he hok hp hb hne
  obtain ⟨hlong, frame, hpass⟩ := exists_passingFrame_of_frmchk ht he hok
  obtain ⟨frame', hl, hh, hcrc⟩ := hpass.exists_changed hp hb hne
  have hexec := exec_frmchk_of_holds (s := { s with buf := s.buf.write p b' }) hlong hpass.fits hl
    hh e
  refine ⟨_, hexec, ?_⟩
  have hverdict : ¬ (trailerVerdict frame').2 = true := by
    rwa [trailerVerdict_iff (by omega)]
  rw [commandEffect, if_neg (Nat.not_lt.mpr hlong), if_neg hverdict]
  exact ⟨rfl, rfl, rfl, rfl⟩

/-- Settles O29: a code with a meaning is one of the nine that the table lists. -/
theorem exceptionCodesWithAMeaning : Obligations.ExceptionCodesWithAMeaning := by
  refine ⟨rfl, rfl, rfl, rfl, rfl, rfl, rfl, rfl, rfl, ?_⟩
  decide +kernel

end Sys2Proof.Machine
end

section
/-! The proofs of O31, O32 and O33 (rules R141 to R144, R156): the place of each byte under `perm_N`, a scalar and its big-endian bytes, and DEC after ENC. -/

namespace Sys2Proof.Machine

/-- Where `perm_N` takes byte i of its result from (rule R141). -/
theorem getElem?_perm {n : Nat} (hn : n ∈ [1, 2, 4]) {s : List Byte} (ws mws : Bool)
    (hs : s.length = 2 * n) {i : Nat} (hi : i < 2 * n) :
    (perm n s ws mws)[i]? =
      s[2 * (if mws = true ∧ 2 ≤ n then n - 1 - i / 2 else i / 2) +
        (if ws then 1 - i % 2 else i % 2)]? := by
  have hmulti : (mws = true ∧ 2 ≤ n) ↔ mws = true ∧ n ∈ [2, 4] := by
    simp only [List.mem_cons, List.not_mem_nil, or_false] at hn
    rcases hn with rfl | rfl | rfl <;> simp
  have hword (k : Nat) : (if ws then swapPairs s else s)[2 * k + i % 2]? =
      s[2 * k + (if ws then 1 - i % 2 else i % 2)]? := by
    rw [getElem?_swapPairs_if (by omega)]
    congr 1
    split_ifs <;> omega
  have hi2 : i = 2 * (i / 2) + i % 2 := (Nat.div_add_mod i 2).symm
  by_cases hm : mws = true ∧ n ∈ [2, 4]
  · have ht : (if ws then swapPairs s else s).length = 2 * n := by split <;> simp [hs]
    rw [perm_of_multiWord hm, if_pos (hmulti.mpr hm), ← hword]
    conv_lhs => rw [hi2]
    exact getElem?_reverseWords (by omega) ht (by omega)
  · rw [perm_of_not_multiWord hm, if_neg (mt hmulti.mp hm), ← hword, ← hi2]

/-- The two steps of `perm_N` in the other order (rule R144). -/
theorem perm_multiWord_first (n : Nat) {s : List Byte} (ws mws : Bool) (h : s.length % 2 = 0) :
    perm n (perm n s false mws) ws false = perm n s ws mws := by
  rw [perm_of_not_multiWord (by simp)]
  by_cases hm : mws = true ∧ n ∈ [2, 4]
  · rw [perm_of_multiWord hm, perm_of_multiWord hm]
    cases ws with
    | false => rfl
    | true => exact swapPairs_reverseWords h
  · rw [perm_of_not_multiWord hm, perm_of_not_multiWord hm]
    rfl

/-- Settles O31: both steps are their own inverses and commute, and each moves a byte by its place in the word or by the word's. -/
theorem permIsItsOwnInverse : Obligations.PermIsItsOwnInverse := by
  intro n hn s ws mws hs
  have heven : s.length % 2 = 0 := by omega
  exact ⟨perm_perm n ws mws heven, perm_multiWord_first n ws mws heven,
    fun _ => getElem?_perm hn ws mws hs⟩

theorem ofBigEndian_append_byte (w : Nat) (bytes : List Byte) (b : Byte) :
    ofBigEndian w (bytes ++ [b]) = (ofBigEndian w bytes <<< 8) ||| b.setWidth w := by
  simp [ofBigEndian]

/-- Bit k of a big-endian value is bit k mod 8 of the byte k div 8 places before the last. -/
theorem getLsbD_ofBigEndian {w k : Nat} (hk : k < w) (bytes : List Byte) :
    (ofBigEndian w bytes).getLsbD k = (bytes.reverse.getD (k / 8) 0#8).getLsbD (k % 8) := by
  induction bytes using List.reverseRecOn generalizing k with
  | nil => simp [ofBigEndian]
  | append_singleton bytes b ih =>
    rw [ofBigEndian_append_byte, BitVec.getLsbD_or, BitVec.getLsbD_shiftLeft,
      BitVec.getLsbD_setWidth, List.reverse_concat]
    rcases Nat.lt_or_ge k 8 with hlt | hge
    · simp [hk, hlt, Nat.div_eq_of_lt hlt, Nat.mod_eq_of_lt hlt]
    · obtain ⟨j, rfl⟩ : ∃ j, k = j + 8 := ⟨k - 8, by omega⟩
      have hhigh : b.getLsbD (j + 8) = false := BitVec.getLsbD_of_ge _ _ (by omega)
      rw [hhigh, Nat.add_div_right j (by omega), Nat.add_mod_right, List.getD_cons_succ,
        Nat.add_sub_cancel, ih (by omega)]
      simp [hk]

theorem getElem?_bigEndian {n i : Nat} (v : BitVec (16 * n)) (hi : i < 2 * n) :
    (bigEndian n v)[i]? = some (v.extractLsb' (8 * (2 * n - 1 - i)) 8) := by
  simp [bigEndian, hi]

/-- Byte i of a sequence read big-endian is at its place in the value (rule R142). -/
theorem getElem?_eq_extractLsb'_ofBigEndian {n i : Nat} {bytes : List Byte}
    (hl : bytes.length = 2 * n) (hi : i < 2 * n) :
    bytes[i]? = some ((ofBigEndian (16 * n) bytes).extractLsb' (8 * (2 * n - 1 - i)) 8) := by
  rw [List.getElem?_eq_getElem (by omega), Option.some.injEq]
  refine BitVec.eq_of_getLsbD_eq fun k hk => ?_
  have hplace : (8 * (2 * n - 1 - i) + k) / 8 = bytes.length - 1 - i := by omega
  have hbit : (8 * (2 * n - 1 - i) + k) % 8 = k := by omega
  rw [BitVec.getLsbD_extractLsb', getLsbD_ofBigEndian (by omega), hplace, hbit,
    List.getD_eq_getElem _ _ (by rw [List.length_reverse]; omega), List.getElem_reverse]
  simp only [hk, decide_true, Bool.true_and]
  congr 2
  omega

theorem bigEndian_ofBigEndian {n : Nat} {bytes : List Byte} (hl : bytes.length = 2 * n) :
    bigEndian n (ofBigEndian (16 * n) bytes) = bytes := by
  refine List.ext_getElem? fun i => ?_
  rcases Nat.lt_or_ge i (2 * n) with hi | hi
  · rw [getElem?_bigEndian _ hi, getElem?_eq_extractLsb'_ofBigEndian hl hi]
  · rw [List.getElem?_eq_none (by simpa using hi), List.getElem?_eq_none (by omega)]

theorem ofBigEndian_bigEndian (n : Nat) (v : BitVec (16 * n)) :
    ofBigEndian (16 * n) (bigEndian n v) = v := by
  refine BitVec.eq_of_getLsbD_eq fun k hk => ?_
  have hk8 : k / 8 < 2 * n := by omega
  have hbyte : (bigEndian n v).reverse.getD (k / 8) 0#8 = v.extractLsb' (8 * (k / 8)) 8 := by
    rw [List.getD_eq_getElem?_getD, List.getElem?_reverse (by simpa using hk8), length_bigEndian,
      getElem?_bigEndian v (by omega), Option.getD_some]
    congr 2
    omega
  rw [getLsbD_ofBigEndian hk, hbyte, BitVec.getLsbD_extractLsb', Nat.div_add_mod]
  simp [Nat.mod_lt]

/-- Among sequences of 2N bytes exactly `encode_N(v)` decodes to v (rules R142, R143). -/
theorem decodeScalar_eq_iff {n : Nat} {bytes : List Byte} (hl : bytes.length = 2 * n)
    (v : BitVec (16 * n)) (ws mws : Bool) :
    decodeScalar n bytes ws mws = v ↔ bytes = encodeScalar n v ws mws := by
  constructor
  · rintro rfl
    rw [encodeScalar, decodeScalar, bigEndian_ofBigEndian (by rw [length_perm, hl]),
      perm_perm n ws mws (by omega)]
  · rintro rfl
    rw [decodeScalar, encodeScalar, perm_perm n ws mws (by rw [length_bigEndian]; omega),
      ofBigEndian_bigEndian]

/-- Settles O32: a scalar and its big-endian bytes determine each other, and `perm_N` is its own inverse. -/
theorem decodeAndEncodeScalars : Obligations.DecodeAndEncodeScalars :=
  fun n _ ws mws =>
    ⟨fun s hs i hi => getElem?_eq_extractLsb'_ofBigEndian (by rw [length_perm, hs]) hi,
      fun v => ⟨⟨bigEndian n v, length_bigEndian n v, fun _ => getElem?_bigEndian v, rfl⟩,
        fun _ hs => decodeScalar_eq_iff hs v ws mws⟩⟩

theorem encodeFromData_completes {n : Nat} {s t : State} (h : encodeFromData n s = .next t)
    (he : t.err = .none) :
    s.dst.toNat + 2 * n ≤ s.bufSize.val ∧ t = commandEffect.encEffect n s := by
  rcases Nat.lt_or_ge s.bufSize.val (s.dst.toNat + 2 * n) with hlt | hfit
  · rw [encodeFromData_range hlt] at h
    cases h
    cases he
  · rw [encodeFromData_fits hfit] at h
    cases h
    exact ⟨hfit, rfl⟩

/-- DEC at the position of an ENC of the same width (rule R156). -/
theorem decodeToData_after_encodeFromData {n : Nat} {s t : State}
    (h : encodeFromData n s = .next t) (he : t.err = .none) :
    ∃ u, decodeToData n { t with src := s.dst } = .next u ∧ u.err = .none ∧
      u.data = (s.data.setWidth (16 * n)).setWidth 64 ∧ u.buf = t.buf := by
  obtain ⟨hfit, rfl⟩ := encodeFromData_completes h he
  have hlen := length_encodeScalar n (s.data.setWidth (16 * n)) s.ws s.mws
  refine ⟨_, decodeToData_holds hfit hlen (stores_writeAll s.buf s.dst.toNat _).1, rfl, ?_, rfl⟩
  exact congrArg (BitVec.setWidth 64) ((decodeScalar_eq_iff hlen _ s.ws s.mws).mpr rfl)

/-- Settles O33: at each width DEC reads the bytes that ENC stored, and they decode to the value encoded. -/
theorem encThenDecRestoresData : Obligations.EncThenDecRestoresData := by
  intro x hx s t h he
  simp only [List.mem_cons, List.not_mem_nil, or_false] at hx
  rcases hx with rfl | rfl | rfl <;> exact decodeToData_after_encodeFromData h he

end Sys2Proof.Machine
end

section
/-! The proof of O38 (rule R146): DATA read as an unsigned and as a signed number. -/

namespace Sys2Proof.Machine

/-- Settles O38: the pattern is DATA cut to 16N bits, two's complement is `BitVec.toInt`, and a sign extension keeps it. -/
theorem typedViewsOfData : Obligations.TypedViewsOfData := by
  intro n hn s
  have hwidth : 16 * n ≤ 64 := by
    simp only [List.mem_cons, List.not_mem_nil, or_false] at hn
    omega
  refine ⟨BitVec.toNat_setWidth _ _, ?_, BitVec.toInt_signExtend_of_le hwidth⟩
  rw [State.intView, BitVec.toInt_eq_toNat_cond, State.uintView]
  norm_cast

end Sys2Proof.Machine
end

section
/-! The proofs of O40, O41 and O45 (rules R175, R180): decoding undoes encoding up to the length, at the functions and at the commands; packing and unpacking undo each other up to nonzero bytes and padding. -/

namespace Sys2Proof.Machine

/-- The swap before the cut undoes the swap at the end of the encoding, and the cut removes the even padding. -/
theorem strDecode_strEncode (s : List Byte) {n L : Nat} (h : n ≤ L) (sws : Bool) :
    strDecode (strEncode s L sws) n sws = (resize s L).take n := by
  have hswap : strDecode (strEncode s L sws) n sws = (strEncode s L false).take n := by
    rw [strDecode, strEncode_eq_swap]
    cases sws <;> simp
  rw [hswap]
  refine List.ext_getElem? fun i => ?_
  rcases Nat.lt_or_ge i n with hi | hi
  · rw [List.getElem?_take_of_lt hi, List.getElem?_take_of_lt hi,
      getElem?_strEncode_false s (by omega), if_pos (by omega), getElem?_resize s (by omega)]
  · rw [List.getElem?_take_eq_none hi, List.getElem?_take_eq_none hi]

theorem take_length_resize {s : List Byte} {L : Nat} (h : s.length ≤ L) :
    (resize s L).take s.length = s := by
  unfold resize
  split
  · rw [List.take_take, Nat.min_eq_left h, List.take_length]
  · exact List.take_left' rfl

theorem resize_of_lt {s : List Byte} {L : Nat} (h : L < s.length) : resize s L = s.take L :=
  if_pos h.le

theorem strDecode_strEncode_of_le {s : List Byte} {L : Nat} (h : s.length ≤ L) (sws : Bool) :
    strDecode (strEncode s L sws) s.length sws = s := by
  rw [strDecode_strEncode s h, take_length_resize h]

/-- Settles O40: the decoded bytes are the resized source, cut. -/
theorem stringRoundTrip : Obligations.StringRoundTrip := by
  refine fun s L sws => ⟨fun h => strDecode_strEncode_of_le h sws, fun h => ?_⟩
  rw [strDecode_strEncode s le_rfl, resize_of_lt h, List.take_take, Nat.min_self]

theorem ranges_of_strenc {fixed : Bool} {s : State} (h : commandError (.strenc fixed) s = .none) :
    s.src.toNat + s.cnt.toNat ≤ s.bufSize.val ∧
      s.dst.toNat + (s.stringLength fixed + s.stringLength fixed % 2) ≤ s.bufSize.val :=
  (rangesFit_of_twoRanges (checkedRanges_strenc fixed s)).mp (commandError_eq_none.mp h).1

/-- STRDEC.F on an encoded string, with AUX the length of its source, restores the source. -/
theorem exists_strdec_of_encoded {r : State} {bytes : List Byte} {L : Nat}
    (hcnt : r.cnt.toNat = L + L % 2) (haux : r.aux.toNat = bytes.length) (hL : bytes.length ≤ L)
    (hsrc : r.src.toNat + r.cnt.toNat ≤ r.bufSize.val)
    (hdst : r.dst.toNat + r.aux.toNat ≤ r.bufSize.val)
    (hh : Holds r.buf r.src.toNat (strEncode bytes L r.sws)) :
    ∃ u, exec (.strdec true) r = .next u ∧ u.err = .none ∧ Holds u.buf r.dst.toNat bytes ∧
      u.rlen = r.aux := by
  obtain ⟨-, -, -, hdec⟩ := strdecDecodesAString
  have hlen : r.aux.toNat ≤ r.cnt.toNat := by omega
  obtain ⟨u, hu, hframe, hrlen, hout, -⟩ :=
    ((hdec r true).2 hsrc hdst).2 _ (by omega) hlen (by rw [length_strEncode, hcnt]) hh
  have hround : strDecode (strEncode bytes L r.sws) r.aux.toNat r.sws = bytes := by
    rw [haux, strDecode_strEncode_of_le hL]
  exact ⟨u, hu, by rw [hframe], hround ▸ hout, BitVec.eq_of_toNat_eq hrlen⟩

/-- Settles O41: STRDEC.F reads the bytes that STRENC stored and decodes them to the source length. -/
theorem strencThenStrdecRestoresTheString : Obligations.StrencThenStrdecRestoresTheString := by
  intro s t fixed bytes d hfixed hl hh ht he hd
  obtain ⟨hc, rfl⟩ := eq_commandEffect_of_completes (i := .strenc fixed) hl hh ht he
  obtain ⟨-, hdst⟩ := ranges_of_strenc hc
  have hL : bytes.length ≤ s.stringLength fixed := by
    rw [hl]
    cases fixed with
    | false => exact le_rfl
    | true => exact hfixed rfl
  have hrlen : (commandEffect (.strenc fixed) bytes s).rlen.toNat =
      s.stringLength fixed + s.stringLength fixed % 2 :=
    toNat_ofNat_of_le_bufSize (size := s.bufSize) (by omega)
  exact exists_strdec_of_encoded hrlen hl.symm hL (by rw [hrlen]; exact hdst) hd
    (stores_writeAll s.buf s.dst.toNat _).1

theorem getD_unpack (packed : List Byte) (m i : Nat) :
    (unpack packed m).getD i 0#8 =
      if i < m ∧ (packed.getD (i / 8) 0#8).getLsbD (i % 8) = true then 1#8 else 0#8 := by
  rw [List.getD_eq_getElem?_getD]
  rcases Nat.lt_or_ge i m with hi | hi
  · rw [getElem?_unpack packed hi]
    simp [hi]
  · rw [List.getElem?_eq_none (by rwa [length_unpack]), if_neg (by omega)]
    rfl

theorem getLsbD_pack (bits : List Byte) (j : Nat) {k : Nat} (hk : k < 8) :
    ((pack bits).getD j 0#8).getLsbD k = decide (bits.getD (8 * j + k) 0#8 ≠ 0#8) := by
  rw [getD_pack, getLsbD_packByte _ hk, getD_group bits j hk]

/-- Settles O45: bit i mod 8 of packed byte i div 8 says whether byte i is nonzero. -/
theorem packUnpackRoundTrips : Obligations.PackUnpackRoundTrips := by
  refine ⟨fun bits => List.ext_getElem? fun i => ?_,
    fun packed m hp => ⟨?_, fun j k hk => ?_⟩⟩
  · rcases Nat.lt_or_ge i bits.length with hi | hi
    · rw [getElem?_unpack _ hi, getLsbD_pack _ _ (Nat.mod_lt _ (by omega)), Nat.div_add_mod,
        List.getElem?_map, List.getElem?_eq_getElem hi, List.getD_eq_getElem _ _ hi]
      by_cases hb : bits[i] = 0#8 <;> simp [hb]
    · rw [List.getElem?_eq_none (by simpa using hi), List.getElem?_eq_none (by simpa using hi)]
  · rw [length_pack, length_unpack, hp, packedLength]
  · have hbyte : (8 * j + k) / 8 = j := by omega
    have hbit : (8 * j + k) % 8 = k := by omega
    rw [getLsbD_pack _ _ hk, getD_unpack, hbyte, hbit]
    by_cases hm : 8 * j + k < m <;> cases (packed.getD j 0#8).getLsbD k <;> simp [hm]

end Sys2Proof.Machine
end

section
/-! What one host access does, by the place its offset names: a register, a byte of BUF, or neither. -/

namespace Sys2Proof.Machine

theorem access_readReg (r : Reg) (s : State) :
    access (.read .w32 (regOffset r)) s = .next (s.reply (.data (.b32 (s.regRead r)))) := by
  simp [access, hostRead]

theorem access_writeCmd (w : Word) (s : State) :
    access (writeReg .cmd w) s = accept (execWord w s) := by
  simp [access, writeReg, hostWrite, regWrite]

theorem access_writeByte {s : State} {n : Nat} (h : n < s.bufSize.val) (v : Byte) :
    access (.write (BitVec.ofNat 17 (0x10000 + n)) (.b8 v)) s =
      .next ({ s with buf := s.buf.write n v }.reply .accepted) := by
  simp [access, hostWrite, windowAt_offset h s.bufSize.most, accept]

theorem accept_eq_onNext (r : Result) :
    accept r = onNext (fun t => { t with replies := .accepted :: t.replies }) r := by
  cases r <;> rfl

theorem regAt_eq_none {s : State} {off : Offset} (h : ¬ Accepts s .w32 off) : regAt off = none := by
  refine Option.eq_none_iff_forall_ne_some.mpr fun r hr => h (.inl ⟨rfl, ?_⟩)
  exact (regAt_isSome off).mp ⟨r, hr⟩

theorem windowAt_eq_none {s : State} {off : Offset} (h : ¬ Accepts s .w8 off) :
    windowAt s.bufSize.val off = none := by
  refine Option.eq_none_iff_forall_ne_some.mpr fun i hi => h (.inr ⟨rfl, ?_⟩)
  exact (windowAt_isSome _ off).mp ⟨i, hi⟩

theorem exists_regAt {s : State} {off : Offset} (h : Accepts s .w32 off) :
    ∃ r, regAt off = some r := by
  rcases h with ⟨-, h⟩ | ⟨h, -⟩
  · exact (regAt_isSome off).mpr h
  · cases h

theorem exists_windowAt {s : State} {off : Offset} (h : Accepts s .w8 off) :
    ∃ i, windowAt s.bufSize.val off = some i := by
  rcases h with ⟨h, -⟩ | ⟨-, h⟩
  · cases h
  · exact (windowAt_isSome _ off).mpr h

theorem not_accepts_w16 (s : State) (off : Offset) : ¬ Accepts s .w16 off := by
  rintro (⟨h, -⟩ | ⟨h, -⟩) <;> cases h

theorem hostRead_rejected {s : State} {width : Width} {off : Offset} (h : ¬ Accepts s width off) :
    hostRead width off s = .ok .busError := by
  cases width with
  | w8 => simp only [hostRead, windowAt_eq_none h]
  | w16 => rfl
  | w32 => simp only [hostRead, regAt_eq_none h]

theorem hostWrite_rejected {s : State} {v : BusData} {off : Offset} (h : ¬ Accepts s v.width off) :
    hostWrite off v s = .next (s.reply .busError) := by
  cases v with
  | b8 v => simp only [hostWrite, windowAt_eq_none h]
  | b16 v => rfl
  | b32 v => simp only [hostWrite, regAt_eq_none h]

/-- An accepted read that answers, answers data of its width. -/
theorem hostRead_accepted {s : State} {width : Width} {off : Offset} {a : Reply}
    (h : Accepts s width off) (hr : hostRead width off s = .ok a) :
    ∃ v : BusData, v.width = width ∧ a = .data v := by
  cases width with
  | w8 =>
    obtain ⟨i, hi⟩ := exists_windowAt h
    simp only [hostRead, hi] at hr
    cases hb : bufRead s i with
    | ok b =>
      rw [hb] at hr
      cases hr
      exact ⟨.b8 b, rfl, rfl⟩
    | error f =>
      rw [hb] at hr
      cases hr
  | w16 => exact absurd h (not_accepts_w16 s off)
  | w32 =>
    obtain ⟨r, hreg⟩ := exists_regAt h
    simp only [hostRead, hreg] at hr
    cases hr
    exact ⟨.b32 (s.regRead r), rfl, rfl⟩

/-- A host read that answers, taken apart: it only records its answer. -/
theorem access_read_cases {s t : State} {width : Width} {off : Offset}
    (h : access (.read width off) s = .next t) :
    ∃ a, hostRead width off s = .ok a ∧ t = s.reply a := by
  simp only [access] at h
  cases hr : hostRead width off s with
  | ok a =>
    rw [hr] at h
    cases h
    exact ⟨a, rfl, rfl⟩
  | error f =>
    rw [hr] at h
    cases h

/-- What a host read answers does not depend on the answers given before. -/
theorem hostRead_reply (width : Width) (off : Offset) (s : State) (a : Reply) :
    hostRead width off (s.reply a) = hostRead width off s := by
  cases width <;> rfl

theorem regWrite_replies {r : Reg} {v : Word} {s t : State} (h : regWrite r v s = .next t) :
    t.replies = s.replies := by
  cases r with
  | cmd =>
    simp only [regWrite, execWord] at h
    split at h
    · next i _ =>
      obtain ⟨⟨-, -, -, -, -, -, -, hreplies⟩, -⟩ := commandsWriteOnlyTheirRegisters i s t h
      exact hreplies
    · cases h
      rfl
  | _ =>
    cases h
    rfl

theorem accept_eq_next {r : Result} {t : State} (h : accept r = .next t) :
    ∃ u, r = .next u ∧ t = u.reply .accepted := by
  cases r with
  | next u =>
    cases h
    exact ⟨u, rfl, rfl⟩
  | fault f => cases h
  | refused f => cases h

theorem hostWrite_accepted {s t : State} {v : BusData} {off : Offset} (h : Accepts s v.width off)
    (hw : hostWrite off v s = .next t) : t.replies = .accepted :: s.replies := by
  cases v with
  | b8 b =>
    obtain ⟨i, hi⟩ := exists_windowAt h
    simp only [hostWrite, hi] at hw
    cases hw
    rfl
  | b16 v => exact absurd h (not_accepts_w16 s off)
  | b32 w =>
    obtain ⟨r, hreg⟩ := exists_regAt h
    simp only [hostWrite, hreg] at hw
    obtain ⟨u, hu, rfl⟩ := accept_eq_next hw
    rw [reply_replies, regWrite_replies hu]

end Sys2Proof.Machine
end

section
/-! The proofs of O48 and O51 (rules R61 to R67, R216): accesses on and off the map, and a byte of BUF read back. -/

namespace Sys2Proof.Machine

/-- Settles O48: the map of registers and the window decide whether an access is rejected. -/
theorem busErrorsExactlyOffTheMap : Obligations.BusErrorsExactlyOffTheMap := by
  refine fun s off => ⟨fun width h => ?_, fun v h => hostWrite_rejected h, fun width t h ht => ?_,
    fun v t h ht => hostWrite_accepted h ht⟩
  · rw [access, hostRead_rejected h]
    rfl
  · obtain ⟨a, ha, rfl⟩ := access_read_cases ht
    obtain ⟨v, hv, rfl⟩ := hostRead_accepted h ha
    exact ⟨v, hv, rfl⟩

theorem access_readByte_of_read {s : State} {n : Nat} {v : Byte} (h : n < s.bufSize.val)
    (hv : s.buf.read n = some v) :
    access (.read .w8 (BitVec.ofNat 17 (0x10000 + n))) s = .next (s.reply (.data (.b8 v))) := by
  rw [access_readByte h, bufRead_eq_ok.mpr hv, reading_ok]

/-- Settles O51: the byte written is the one read. -/
theorem windowReadsWhatWasWritten : Obligations.WindowReadsWhatWasWritten :=
  fun s n v hn => ⟨access_readByte_of_read hn, _, access_writeByte hn v,
    access_readByte_of_read (s := { s with buf := s.buf.write n v }.reply .accepted) hn
      (read_write_same s.buf n v)⟩

end Sys2Proof.Machine
end

section
/-! What each register reads and what a host write of it stores (rules R21, R28, R33, R43). -/

namespace Sys2Proof.Machine

/-- The mask of the low n bits of a word. -/
def lowMask (n : Nat) : Word := (BitVec.allOnes n).setWidth 32

theorem setWidth_and_lowMask {n : Nat} (x : BitVec n) :
    x.setWidth 32 &&& lowMask n = x.setWidth 32 := by
  rw [lowMask, ← BitVec.setWidth_and, BitVec.and_allOnes]

/-- The low n bits of a word stored and read back. -/
theorem setWidth_setWidth_eq_and_lowMask (n : Nat) (v : Word) :
    (v.setWidth n).setWidth 32 = v &&& lowMask n := by
  refine BitVec.eq_of_getLsbD_eq fun k hk => ?_
  simp [lowMask, hk, Bool.and_comm]

theorem status_and_usedBits (s : State) : s.status &&& usedBits .status = s.status := by
  have hmask : usedBits .status = 0#8 ++ 0xFF#8 ++ 0#5 ++ 7#3 ++ 0#3 ++ 1#1 ++ 0xF#4 := rfl
  have hexc : s.exc &&& 0xFF#8 = s.exc := BitVec.and_allOnes
  have hfres : s.fres.code &&& 7#3 = s.fres.code := BitVec.and_allOnes
  have hok : BitVec.ofBool s.crcOk &&& 1#1 = BitVec.ofBool s.crcOk := BitVec.and_allOnes
  have herr : s.err.code &&& 0xF#4 = s.err.code := BitVec.and_allOnes
  rw [hmask, State.status]
  rw [BitVec.and_append, BitVec.and_append, BitVec.and_append, BitVec.and_append,
    BitVec.and_append, BitVec.and_append, hexc, hfres, hok, herr]
  rfl

/-- Reserved bits read 0 (rules R21, R43). -/
theorem regRead_and_usedBits (s : State) (r : Reg) :
    s.regRead r &&& usedBits r = s.regRead r := by
  cases r with
  | cfg => exact setWidth_and_lowMask s.cfg
  | crc | len | src | dst | cnt | aux | rlen => exact setWidth_and_lowMask (n := 16) _
  | cmd => exact BitVec.and_zero
  | status => exact status_and_usedBits s
  | dataLo | dataHi => exact BitVec.and_allOnes

/-- A writable register reads back the used bits of what was written (rule R43). -/
theorem regRead_regStore {r : Reg} (h : writable r = true) (v : Word) (s : State) :
    (s.regStore v r).regRead r = v &&& usedBits r := by
  cases r with
  | cfg => exact setWidth_setWidth_eq_and_lowMask 3 v
  | crc | len | src | dst | cnt | aux => exact setWidth_setWidth_eq_and_lowMask 16 v
  | dataLo => exact BitVec.extractLsb'_append_eq_right.trans BitVec.and_allOnes.symm
  | dataHi => exact BitVec.extractLsb'_append_eq_left.trans BitVec.and_allOnes.symm
  | cmd | status | rlen => cases h

theorem regRead_regStore_of_ne {r r' : Reg} (h : r' ≠ r) (v : Word) (s : State) :
    (s.regStore v r).regRead r' = s.regRead r' := by
  cases r with
  | dataLo =>
    cases r' with
    | dataLo => contradiction
    | dataHi => exact BitVec.extractLsb'_append_eq_left
    | _ => rfl
  | dataHi =>
    cases r' with
    | dataLo => exact BitVec.extractLsb'_append_eq_right
    | dataHi => contradiction
    | _ => rfl
  | cmd | status | rlen => rfl
  | _ =>
    revert h
    cases r' <;> simp [State.regStore, State.regRead, State.status]

theorem regStore_frame (s : State) (v : Word) (r : Reg) :
    (s.regStore v r).buf = s.buf ∧ (s.regStore v r).bufSize = s.bufSize ∧
      (s.regStore v r).inputs = s.inputs := by
  cases r <;> exact ⟨rfl, rfl, rfl⟩

theorem regStore_replies (s : State) (v : Word) (r : Reg) :
    (s.regStore v r).replies = s.replies := by
  cases r <;> rfl

theorem regRead_reply (s : State) (a : Reply) (r : Reg) : (s.reply a).regRead r = s.regRead r := by
  cases r <;> rfl

end Sys2Proof.Machine
end

section
/-! The proofs of O49, O50, O52, O53 and O54 (rules R20, R21, R28 to R33, R43, R62, R65): reading and writing the registers on the host port, and the registers as all there is to the state. -/

namespace Sys2Proof.Machine

/-- Settles O49: a register's used bits are stored, kept and read, and the answer is recorded. -/
theorem registerWritesStoreTheUsedBits : Obligations.RegisterWritesStoreTheUsedBits := by
  refine fun s r => ⟨regRead_and_usedBits s r, access_readReg r s, fun hw v => ?_, fun hro v => ?_,
    rfl⟩
  · have hne : r ≠ .cmd := by rintro rfl; cases hw
    refine ⟨_, access_writeReg hne v s, ?_, ?_⟩
    · rw [regRead_reply, regRead_regStore hw]
    · rw [reply_replies, regStore_replies]
  · rcases hro with rfl | rfl <;> exact access_writeReg (by decide) v s

/-- Settles O50: reads and byte writes do what they say, a register store keeps to its register, and a write of CMD executes its word. -/
theorem onlyCmdWritesHaveSideEffects : Obligations.OnlyCmdWritesHaveSideEffects := by
  refine ⟨fun s t width off h => ?_, fun s r v hr => ?_, fun s n v hn => ?_, fun s w => ?_⟩
  · obtain ⟨a, ha, rfl⟩ := access_read_cases h
    refine ⟨a, rfl, ?_⟩
    rw [access, hostRead_reply, ha]
    rfl
  · obtain ⟨hbuf, hsize, hinputs⟩ := regStore_frame s v r
    have hkeep (r' : Reg) (hne : r' ≠ r) :
        ((s.regStore v r).reply .accepted).regRead r' = s.regRead r' := by
      rw [regRead_reply, regRead_regStore_of_ne hne]
    exact ⟨_, access_writeReg hr v s, hkeep, hbuf, hsize, hinputs⟩
  · exact ⟨_, access_writeByte hn v, rfl, stores_writeAll s.buf n [v]⟩
  · exact (access_writeCmd w s).trans (accept_eq_onNext _)

/-- A word is its fields as rule R28 places them. -/
theorem word_eq_append_statusFields (w : Word) :
    w = w.extractLsb' 24 8 ++ w.extractLsb' 16 8 ++ w.extractLsb' 11 5 ++ w.extractLsb' 8 3 ++
      w.extractLsb' 5 3 ++ w.extractLsb' 4 1 ++ w.extractLsb' 0 4 := by
  rw [BitVec.extractLsb'_append_extractLsb'_eq_extractLsb' (by rfl),
    BitVec.extractLsb'_append_extractLsb'_eq_extractLsb' (by rfl),
    BitVec.extractLsb'_append_extractLsb'_eq_extractLsb' (by rfl),
    BitVec.extractLsb'_append_extractLsb'_eq_extractLsb' (by rfl),
    BitVec.extractLsb'_append_extractLsb'_eq_extractLsb' (by rfl),
    BitVec.extractLsb'_append_extractLsb'_eq_extractLsb' (by rfl), BitVec.extractLsb'_eq_self]

/-- Two words of the form of STATUS are equal exactly when their fields are. -/
theorem statusFields_append_eq_iff {a a' b b' : BitVec 8} {c c' : BitVec 5} {d d' e e' : BitVec 3}
    {f f' : BitVec 1} {g g' : BitVec 4} :
    a ++ b ++ c ++ d ++ e ++ f ++ g = a' ++ b' ++ c' ++ d' ++ e' ++ f' ++ g' ↔
      a = a' ∧ b = b' ∧ c = c' ∧ d = d' ∧ e = e' ∧ f = f' ∧ g = g' := by
  simp only [bitVec_append_eq_append_iff, and_assoc]

theorem status_fields (s : State) :
    s.status.extractLsb' 24 8 = 0#8 ∧ s.status.extractLsb' 16 8 = s.exc ∧
      s.status.extractLsb' 11 5 = 0#5 ∧ s.status.extractLsb' 8 3 = s.fres.code ∧
      s.status.extractLsb' 5 3 = 0#3 ∧ s.status.extractLsb' 4 1 = BitVec.ofBool s.crcOk ∧
      s.status.extractLsb' 0 4 = s.err.code :=
  statusFields_append_eq_iff.mp (word_eq_append_statusFields s.status).symm

/-- Settles O52: STATUS is put together from its fields, so it is those fields. -/
theorem statusLayout : Obligations.StatusLayout := by
  intro s
  obtain ⟨htop, hexc, hmid, hfres, hlow, hok, herr⟩ := status_fields s
  refine ⟨herr.trans ?_, hok, hlow, hfres.trans ?_, hmid, hexc, htop⟩
  · cases s.err <;> rfl
  · cases s.fres <;> rfl

theorem data_eq_append (s : State) : s.data = s.regRead .dataHi ++ s.regRead .dataLo := by
  rw [State.regRead, State.regRead, BitVec.extractLsb'_append_extractLsb'_eq_extractLsb' (by rfl),
    BitVec.extractLsb'_eq_self]

/-- Settles O53: a store of one half keeps the other. -/
theorem dataHalves : Obligations.DataHalves :=
  fun s v => ⟨data_eq_append s, access_writeReg (r := .dataLo) (by decide) v s,
    access_writeReg (r := .dataHi) (by decide) v s⟩

theorem eq_of_setWidth_word_eq {n : Nat} (hn : n ≤ 32) {x y : BitVec n}
    (h : x.setWidth 32 = y.setWidth 32) : x = y := by
  simpa [BitVec.setWidth_setWidth_of_le, hn] using congrArg (BitVec.setWidth n) h

theorem errCode_injective : Function.Injective CmdErr.code := by
  intro a b h
  revert h
  cases a <;> cases b <;> decide

theorem fresCode_injective : Function.Injective FrameResult.code := by
  intro a b h
  revert h
  cases a <;> cases b <;> decide

theorem status_fields_eq {s t : State} (h : t.status = s.status) :
    t.err = s.err ∧ t.crcOk = s.crcOk ∧ t.fres = s.fres ∧ t.exc = s.exc := by
  obtain ⟨-, hexc, -, hfres, -, hok, herr⟩ := statusFields_append_eq_iff.mp h
  exact ⟨errCode_injective herr, BitVec.ofBool_eq_iff_eq.mp hok, fresCode_injective hfres, hexc⟩

/-- Positions past BUF_SIZE are unwritten in both buffers. -/
theorem buf_eq_of_read_eq {s t : State} (hs : s.wf = true) (ht : t.wf = true)
    (hsize : t.bufSize = s.bufSize) (h : ∀ n < s.bufSize.val, t.buf.read n = s.buf.read n) :
    t.buf = s.buf := by
  obtain ⟨hcanon, hwithin, -⟩ := (wf_iff s).mp hs
  obtain ⟨hcanon', hwithin', -⟩ := (wf_iff t).mp ht
  rw [hsize] at hwithin'
  refine eq_of_sameBytes hcanon hcanon' fun p => ?_
  rcases Nat.lt_or_ge p s.bufSize.val with hp | hp
  · exact h p hp
  · have hnone {m : Memory} (hm : m.within s.bufSize.val = true) : m.read p = none :=
      Option.eq_none_iff_forall_ne_some.mpr fun b hb => absurd (read_lt_of_within hm hb) (by omega)
    rw [hnone hwithin, hnone hwithin']

/-- Settles O54: each field of the state is a register, a field of STATUS, or BUF. -/
theorem noHiddenState : Obligations.NoHiddenState := by
  intro s t hs ht hsize hinputs hreplies hreg hbuf
  have hcfg : t.cfg = s.cfg := eq_of_setWidth_word_eq (by omega) (hreg .cfg)
  have hcrc : t.crc = s.crc := eq_of_setWidth_word_eq (by omega) (hreg .crc)
  have hlen : t.len = s.len := eq_of_setWidth_word_eq (by omega) (hreg .len)
  have hsrc : t.src = s.src := eq_of_setWidth_word_eq (by omega) (hreg .src)
  have hdst : t.dst = s.dst := eq_of_setWidth_word_eq (by omega) (hreg .dst)
  have hcnt : t.cnt = s.cnt := eq_of_setWidth_word_eq (by omega) (hreg .cnt)
  have haux : t.aux = s.aux := eq_of_setWidth_word_eq (by omega) (hreg .aux)
  have hrlen : t.rlen = s.rlen := eq_of_setWidth_word_eq (by omega) (hreg .rlen)
  obtain ⟨herr, hok, hfres, hexc⟩ := status_fields_eq (hreg .status)
  have hdata : t.data = s.data := by
    rw [data_eq_append, data_eq_append, hreg, hreg]
  have hmem := buf_eq_of_read_eq hs ht hsize hbuf
  cases s
  cases t
  exact State.mk.injEq .. ▸ ⟨hsize, hcfg, hcrc, hlen, herr, hok, hfres, hexc, hdata, hsrc, hdst,
    hcnt, haux, hrlen, hmem, hinputs, hreplies⟩

end Sys2Proof.Machine
end

section
/-! The proofs of O1, O55, O56 and O57 (rules R27, R72, R74, R99, R224, R240 to R242): one step on the host's next input, and the values after reset. -/

namespace Sys2Proof.Machine

theorem step_of_inputs {s : State} {e : HostInput} {rest : List HostInput}
    (h : s.inputs = e :: rest) : step s = takeInput e { s with inputs := rest } := by
  simp only [step, h]

theorem step_of_no_inputs {s : State} (h : s.inputs = []) : step s = .next s := by
  simp only [step, h]

/-- Settles O1: an access is the input a step takes, and a write of a decoded word to CMD executes its command. -/
theorem stepRunsTheDecodedCommand : Obligations.StepRunsTheDecodedCommand := by
  refine ⟨fun s a rest h => step_of_inputs h, fun s w i rest h hdec => ?_⟩
  have hstep : step s = accept (execWord w { s with inputs := rest }) :=
    (step_of_inputs h).trans (access_writeCmd w _)
  rw [hstep, execWord_of_decode hdec]
  cases exec i { s with inputs := rest } <;> rfl

theorem regRead_resetOf (size : BufSize) (r : Reg) :
    (State.resetOf size).regRead r = State.reset.regRead r := by
  cases r <;> rfl

/-- Settles O55: the registers read alike at every size, and at the default size their values are evaluated. -/
theorem resetValues : Obligations.ResetValues := by
  refine ⟨fun size => ?_, rfl, rfl⟩
  simp only [regRead_resetOf]
  exact ⟨rfl, by decide, by decide, by decide, by decide, by decide, by decide, by decide,
    by decide, by decide, by decide, by decide, by decide, read_nil⟩

/-- Settles O56: the reset input gives the reset state of the same size, with the host's record. -/
theorem resetInputResetsTheBlock : Obligations.ResetInputResetsTheBlock := by
  intro s rest h
  refine ⟨_, step_of_inputs h, fun r => ?_, read_nil, rfl, rfl, rfl⟩
  cases r <;> rfl

/-- Settles O57: with no input there is nothing to take. -/
theorem waitingChangesNothing : Obligations.WaitingChangesNothing := fun _ => step_of_no_inputs

end Sys2Proof.Machine
end

section
/-! The proof of O58 (rule R98): the accesses of a pseudo-instruction one after the other. -/

namespace Sys2Proof.Machine

theorem accessAll_cons {a : HostAccess} {s t : State} (h : access a s = .next t)
    (rest : List HostAccess) : accessAll (a :: rest) s = accessAll rest t := by
  simp only [accessAll, h]

theorem accessAll_cons_writeReg {r : Reg} (h : r ≠ .cmd) (v : Word) (s : State)
    (rest : List HostAccess) :
    accessAll (writeReg r v :: rest) s = accessAll rest ((s.regStore v r).reply .accepted) :=
  accessAll_cons (access_writeReg h v s) rest

theorem accessAll_cons_command {i : Instr} {s t : State} (h : exec i s = .next t)
    (rest : List HostAccess) :
    accessAll (writeReg .cmd (encode i) :: rest) s = accessAll rest (t.reply .accepted) :=
  accessAll_cons (by rw [access_writeCmd, execWord_of_decode (decode_encode i), h]; rfl) rest

/-- The byte writes of LOAD. -/
theorem accessAll_writeBytes {bytes : List Byte} {i : Nat} {s : State}
    (h : i + bytes.length ≤ s.bufSize.val) :
    accessAll (writeBytes i bytes) s = .next { s with
      buf := s.buf.writeAll i bytes
      replies := List.replicate bytes.length .accepted ++ s.replies } := by
  induction bytes generalizing i s with
  | nil => rfl
  | cons b bytes ih =>
    rw [List.length_cons] at h
    have hbyte : access (.write (byteOffset i) (.b8 b)) s =
        .next ({ s with buf := s.buf.write i b }.reply .accepted) := access_writeByte (by omega) b
    have hrest : i + 1 + bytes.length ≤ s.bufSize.val := by omega
    rw [writeBytes, accessAll_cons hbyte, List.length_cons, List.replicate_succ',
      List.append_assoc]
    exact ih hrest

theorem setWidth_cfgWord (ws mws sws : Bool) :
    (cfgWord ws mws sws).setWidth 3 =
      BitVec.ofBool sws ++ BitVec.ofBool mws ++ BitVec.ofBool ws := by
  cases ws <;> cases mws <;> cases sws <;> rfl

theorem accessAll_ops (a d n x : Word) (s : State) :
    accessAll (lineAccesses (.ops a d n x)) s = .next { s with
      src := a.setWidth 16, dst := d.setWidth 16, cnt := n.setWidth 16, aux := x.setWidth 16
      replies := List.replicate 4 .accepted ++ s.replies } := by
  rw [lineAccesses, accessAll_cons_writeReg (by decide), accessAll_cons_writeReg (by decide),
    accessAll_cons_writeReg (by decide), accessAll_cons_writeReg (by decide)]
  simp only [accessAll, State.regStore, State.reply]
  rfl

theorem accessAll_data64 (v : BitVec 64) (s : State) :
    accessAll (lineAccesses (.data64 v)) s = .next { s with
      data := v, replies := List.replicate 2 .accepted ++ s.replies } := by
  have hdata : v.extractLsb' 32 32 ++
      (s.data.extractLsb' 32 32 ++ v.extractLsb' 0 32).extractLsb' 0 32 = v := by
    rw [BitVec.extractLsb'_append_eq_right,
      BitVec.extractLsb'_append_extractLsb'_eq_extractLsb' (by rfl), BitVec.extractLsb'_eq_self]
  rw [lineAccesses, accessAll_cons_writeReg (by decide), accessAll_cons_writeReg (by decide)]
  simp only [accessAll, State.regStore, State.reply, hdata]
  rfl

theorem accessAll_crcRange {a n : Half} {s : State} {bytes : List Byte}
    (hfit : a.toNat + n.toNat ≤ s.bufSize.val) (hl : bytes.length = n.toNat)
    (hh : Holds s.buf a.toNat bytes) :
    accessAll (lineAccesses (.crcRange (a.setWidth 32) (n.setWidth 32))) s = .next { s with
      src := a, cnt := n, crc := crc16 bytes, err := .none
      replies := List.replicate 4 .accepted ++ s.replies } := by
  have hhalf (x : Half) : (x.setWidth 32).setWidth 16 = x := by simp
  rw [lineAccesses, accessAll_cons_writeReg (by decide), accessAll_cons_writeReg (by decide)]
  simp only [State.regStore, State.reply, hhalf]
  rw [accessAll_cons_command (i := .crcinit) rfl,
    accessAll_cons_command (exec_of_oneRange_holds (i := .crcbuf) rfl rfl hfit hl hh)]
  rfl

/-- Settles O58: LOAD writes byte by byte, and the other four are two or four register writes or commands. -/
theorem pseudoInstructionsDoWhatTheyExpandTo :
    Obligations.PseudoInstructionsDoWhatTheyExpandTo := by
  refine fun s => ⟨fun i bytes _ hfit => ⟨_, accessAll_writeBytes hfit, rfl, stores_writeAll _ _ _⟩,
    fun a d n x => accessAll_ops a d n x s, fun ws mws sws => ?_, fun v => accessAll_data64 v s,
    fun a n bytes => accessAll_crcRange⟩
  refine ⟨_, accessAll_cons_writeReg (by decide) _ s [], rfl, ?_⟩
  simp only [State.ws, State.mws, State.sws, reply_cfg, State.regStore, setWidth_cfgWord]
  cases ws <;> cases mws <;> cases sws <;> decide

end Sys2Proof.Machine
end
